-- ==== Sys2Proof/Word.lean ====
section
/-! DEFINITION. The widths of the block's data: a byte, a 16-bit word, a 9-bit cell address, a 9-bit length
(spec/00_scope.md R5, spec/10_state.md R10). All values are unsigned. -/

namespace Sys2Proof

/-- A byte, 0 to 255 (00_scope.md section 6). -/
abbrev Byte := BitVec 8

/-- The 16-bit data path, command word and checksum width (R5 `CELL_DATA_WIDTH`, `CRC_WIDTH`; R58). -/
abbrev Word := BitVec 16

/-- A host cell address, 9 bits, 512 cells (R5 `CELL_ADDR_WIDTH`, R30). -/
abbrev CellAddr := BitVec 9

/-- The width of `PLEN` and `FLEN`, 0 to 511 (R16, R17). -/
abbrev Length := BitVec 9

end Sys2Proof
end

