-- ==== Sys2Proof/Config.lean ====
section
/-! DEFINITION. The implementation parameters of spec/00_scope.md R5: the fixed ones as constants, the two OPEN ones as
constants without a body, on which nothing depends. -/

namespace Sys2Proof

/-- `CRC_POLY`: the polynomial constant in its right-shifting form (R5, R71). -/
abbrev Config.crcPoly : Word := 0xA001

/-- `CRC_INIT`: the initial value of the checksum register (R5, R72, R75). -/
abbrev Config.crcInit : Word := 0xFFFF

/-- `ADDR_MAX`: the largest legal slave address (R5, R53). -/
abbrev Config.addrMax : Nat := 247

/-- `ADDR_BROADCAST`: the broadcast address, to the block an address like any other (R5, R87). -/
abbrev Config.addrBroadcast : Byte := 0

/-- `PAYLOAD_MAX`: the largest payload in bytes (R5, R52). -/
abbrev Config.payloadMax : Nat := 252

/-- `FRAME_MIN`: the smallest decodable frame in bytes (R5, R52). -/
abbrev Config.frameMin : Nat := 4

/-- `FRAME_MAX`: the largest frame in bytes, 1 + 1 + 252 + 2 (R5, R52). -/
abbrev Config.frameMax : Nat := 256

/-- `BUF_SIZE`: the number of frame buffer cells (R5, R23). -/
abbrev Config.bufSize : Nat := 256

/-- The cell address of `BUF[0]` (R30). -/
abbrev Config.bufBase : Nat := 0x100

/-- `BusBinding`, OPEN (R5, 92_eei_decisions.md D1): here the bus address of a cell, left without a value.
No rule of the spec and no definition of the model uses it (log 9). -/
opaque Config.busBinding : CellAddr → Nat

/-- `Timing`, OPEN (R5, R169, D20): the number of cycles a write of a word to a cell takes, left without a value.
No rule of the spec and no definition of the model uses it (log 9). -/
opaque Config.timing : CellAddr → Word → Nat

end Sys2Proof
end

