-- ==== Sys2Proof/Syntax.lean ====
section
/-! DEFINITION. The commands of the block: one constructor per row of spec/opcode_table.json (spec/30_encoding.md R60). -/

namespace Sys2Proof

/-- A command. The only operand a command word carries is `imm8` of `CRC.BYTE` (R58, R59); every other operand of a
command is read from a cell. -/
inductive Instr where
  /-- `NOP` (R100). -/
  | nop
  /-- `CRC.INIT` (R75). -/
  | crcInit
  /-- `CRC.BYTE imm8` (R76). -/
  | crcByte (imm8 : Byte)
  /-- `ENC` (R83). -/
  | enc
  /-- `DEC` (R93). -/
  | dec
  /-- `CLR` (R101). -/
  | clr
  deriving DecidableEq, Repr

end Sys2Proof
end

