-- ==== Sys2Proof/WellFormed.lean ====
section
/-! DEFINITION. What is well formed: a command, a command word (spec/30_encoding.md R58, R60, R61), and the bounds the
pseudo-instructions of R64 need. -/

namespace Sys2Proof

/-- A row of the opcode map of R60, as spec/opcode_table.json writes it. -/
structure OpcodeRow where
  mnemonic : String
  pattern  : Word
  mask     : Word
  deriving DecidableEq, Repr

/-- The row of each command (R60, opcode_table.json). -/
def Instr.row : Instr → OpcodeRow
  | .nop       => ⟨"NOP", 0x0000, 0xFFFF⟩
  | .crcInit   => ⟨"CRC.INIT", 0x0100, 0xFFFF⟩
  | .crcByte _ => ⟨"CRC.BYTE", 0x0200, 0xFF00⟩
  | .enc       => ⟨"ENC", 0x1000, 0xFFFF⟩
  | .dec       => ⟨"DEC", 0x2000, 0xFFFF⟩
  | .clr       => ⟨"CLR", 0x3000, 0xFFFF⟩

/-- The opcode map of R60, in the table's order. -/
def opcodeMap : List OpcodeRow :=
  [Instr.nop.row, Instr.crcInit.row, (Instr.crcByte 0).row, Instr.enc.row, Instr.dec.row, Instr.clr.row]

/-- A word selects the command of a row exactly when `word and mask = match` (R60). -/
def OpcodeRow.selects (r : OpcodeRow) (w : Word) : Bool := w &&& r.mask == r.pattern

/-- A command word is well formed when it selects a command; every other word is reserved (R60, R61). -/
def commandWordWellFormed (w : Word) : Bool := opcodeMap.any (OpcodeRow.selects · w)

/-- Every command is well formed: the width of `imm8` is the type's (R59), and no command has another operand. -/
def Instr.wellFormed : Instr → Bool
  | .nop          => true
  | .crcInit      => true
  | .crcByte imm8 => imm8.toNat ≤ 255
  | .enc          => true
  | .dec          => true
  | .clr          => true

/-- `LDBUF k, b0, …, b(m-1)` needs `k + m ≤ 256` (R64). -/
def ldbufFits (k m : Nat) : Bool := k + m ≤ Config.bufSize

/-- `ENCODE` needs a payload of at most 254 bytes, so that it fits `BUF` from cell 2 (R64). -/
def encodeFits (n : Nat) : Bool := n ≤ 254

/-- `DECODE` needs at most 256 raw bytes (R64). -/
def decodeFits (l : Nat) : Bool := l ≤ Config.bufSize

end Sys2Proof
end

