-- ==== Sys2Proof/Decode.lean ====
section
/-! DEFINITION. The command decoder, total on every 16-bit word and rejecting by name, and after it the encoder
(spec/30_encoding.md R58 to R61, spec/opcode_table.json). -/

namespace Sys2Proof

/-- Why a word is reserved (R61). -/
inductive ReservedWord where
  /-- The opcode is none of 0x00, 0x01, 0x02, 0x10, 0x20, 0x30. -/
  | opcode (op : Byte)
  /-- The opcode is one of 0x00, 0x01, 0x10, 0x20, 0x30 and `imm8` is not 0x00. -/
  | immediate (op imm8 : Byte)
  deriving DecidableEq, Repr

/-- Bits 15:8 of a command word (R58). -/
def opcodeField (w : Word) : Byte := w.extractLsb' 8 8

/-- Bits 7:0 of a command word (R58, R59: used as it stands, unsigned). -/
def immField (w : Word) : Byte := w.extractLsb' 0 8

/-- A command whose `imm8` must be 0x00 (R58, R61). -/
def decodeBare (w : Word) (i : Instr) : Except ReservedWord Instr :=
  if immField w = 0 then .ok i else .error (.immediate (opcodeField w) (immField w))

/-- The decoder of `CMD` writes (R18, R60, R61). -/
def decode (w : Word) : Except ReservedWord Instr :=
  match (opcodeField w).toNat with
  | 0x00 => decodeBare w .nop
  | 0x01 => decodeBare w .crcInit
  | 0x02 => .ok (.crcByte (immField w))
  | 0x10 => decodeBare w .enc
  | 0x20 => decodeBare w .dec
  | 0x30 => decodeBare w .clr
  | _    => .error (.opcode (opcodeField w))

/-- The command read from a table word of `nbits` bits. A command is exactly one 16-bit word (R58), so bits of `w` at and
above `nbits` are not part of it and what is left must fit 16 bits (log 10). -/
def decodeTableWord (nbits w : Nat) : Option Instr :=
  let v := w % 2 ^ nbits
  if v < 2 ^ 16 then (decode (BitVec.ofNat 16 v)).toOption else none

/-- The command word of a command (R60, R63). -/
def encode : Instr → Word
  | .nop          => 0x0000
  | .crcInit      => 0x0100
  | .crcByte imm8 => 0x0200 ||| imm8.setWidth 16
  | .enc          => 0x1000
  | .dec          => 0x2000
  | .clr          => 0x3000

end Sys2Proof
end

