-- ==== Sys2Proof/Machine/State.lean ====
section
/-! DEFINITION. The state of the block (spec/10_state.md R10, R25), what the host has still to issue and what its reads
returned, and the reasons a step can stop. -/

namespace Sys2Proof.Machine

/-- What reaches the block from outside, one at a time (spec/20_memory.md R33, R34, R40; spec/70_reset_and_hazards.md
R160). -/
inductive Event where
  /-- The host transaction `Read(a)` (R33). -/
  | read (a : CellAddr)
  /-- The host transaction `Write(a, v)` (R34). -/
  | write (a : CellAddr) (v : Word)
  /-- The external reset, which is not a host transaction (R160; log 6). -/
  | reset
  deriving DecidableEq, Repr

/-- The frame buffer: `(k, b)` is listed exactly when `BUF[k]` holds `b` and its *written* mark is set (R23, R24; log 2).
An unlisted cell has no value (log 1). -/
abbrev Memory := List Host.Cell

/-- The state of the block is `STATUS`, `CRC`, `ADDR`, `FC`, `PLEN`, `FLEN` and `BUF` with its written marks, and nothing
else (R10). `pending` and `answers` are the model's own: the host's side of the interface. -/
structure State where
  /-- `STATUS`, with the fields of R19. -/
  status  : Word
  /-- `CRC`, the checksum register (R13). -/
  crc     : Word
  /-- `ADDR`, a slave address (R14). -/
  addr    : Byte
  /-- `FC`, a function code byte (R15). -/
  fc      : Byte
  /-- `PLEN`, a payload length (R16). -/
  plen    : Length
  /-- `FLEN`, a frame length (R17). -/
  flen    : Length
  /-- `BUF` and the written marks (R23, R24). -/
  buf     : Memory
  /-- The model's own: the events not yet taken, in the order they were issued (R40; log 3). -/
  pending : List Event
  /-- The model's own: the values that reads returned, newest first (R33; log 5). -/
  answers : List Word
  deriving DecidableEq, Repr

/-- Why the model stops. -/
inductive Fault where
  /-- A host `Read`, `ENC` or `DEC` read buffer cell `k` with its written mark clear: no defined result (R24,
  93_implementation_defined.md U1). Safe: a proof about a run must show that the case does not arise (log 1). -/
  | undefinedRead (k : Nat)
  deriving DecidableEq, Repr

/-- Why an instruction has no meaning. A word or an access that the SPEC refuses is not this: it takes a next state with
`STATUS.ACCERR` set (R35, R61). -/
inductive Refusal where
  /-- An arm of `exec` that is not modelled yet. Safe. No arm raises it. -/
  | notModelled (mnemonic : String)
  deriving DecidableEq, Repr

/-- The machine right after reset: the values of R25 and R161, `BUF` unspecified with every written mark clear, no
transaction issued and no value returned. -/
def State.reset : State where
  status  := 0x0000
  crc     := 0xFFFF
  addr    := 0x00
  fc      := 0x00
  plen    := 0
  flen    := 0
  buf     := []
  pending := []
  answers := []

end Sys2Proof.Machine
end

