-- ==== Sys2Proof/Machine/Flags.lean ====
section
/-! DEFINITION. The fields of `STATUS` and the codes that stand in them (spec/10_state.md R19 to R22,
spec/60_exceptions.md R141). -/

namespace Sys2Proof.Machine

/-- The error kinds the block reports (R141): the first three are band3's, the last is the spec's own (R145). -/
inductive ErrorKind where
  /-- `ENC`: `ADDR` > 247 or `PLEN` > 252 (R142). -/
  | encodingError
  /-- `DEC`: `FLEN` < 4 (R143). -/
  | truncatedFrameError
  /-- `DEC`: the recomputed checksum differs from the received one (R144). -/
  | checksumError
  /-- `DEC`: `FLEN` > 256 (R145). -/
  | overlengthError
  deriving DecidableEq, Repr

/-- The two codec commands, which alone report an outcome (R20). -/
inductive CodecCommand where
  | enc
  | dec
  deriving DecidableEq, Repr

/-- `STATUS.ERR` of a command that succeeded: 0, `None` (R141). -/
def errNone : BitVec 3 := 0

/-- The code of an error kind in `STATUS.ERR` (R141). -/
def errCode : ErrorKind → BitVec 3
  | .encodingError       => 1
  | .truncatedFrameError => 2
  | .checksumError       => 3
  | .overlengthError     => 4

/-- The value of `STATUS.LAST` that names a codec command (R19). -/
def lastCode : CodecCommand → BitVec 2
  | .enc => 1
  | .dec => 2

/-- `STATUS.ERR`, bits 2:0 (R19). -/
def errField (w : Word) : BitVec 3 := w.extractLsb' 0 3

/-- `STATUS.LAST`, bits 5:4 (R19). -/
def lastField (w : Word) : BitVec 2 := w.extractLsb' 4 2

/-- `STATUS.ACCERR`, bit 7 (R19). -/
def accErrBit (w : Word) : Bool := w.getLsbD 7

/-- The reserved bits of `STATUS`: 3, 6 and 15:8 (R19). -/
def statusReservedMask : Word := 0xFF48

/-- `STATUS` with `ERR` and `LAST` written together and every other bit kept (R20). -/
def withOutcome (w : Word) (err : BitVec 3) (last : BitVec 2) : Word :=
  (w &&& ~~~(0x0037 : Word)) ||| err.setWidth 16 ||| (last.setWidth 16 <<< 4)

/-- `STATUS` with `ACCERR` set and every other bit kept (R22). -/
def withAccErr (w : Word) : Word := w ||| 0x0080

/-- `STATUS.ERR` of a state. -/
def State.err (s : State) : BitVec 3 := errField s.status

/-- `STATUS.LAST` of a state. -/
def State.last (s : State) : BitVec 2 := lastField s.status

/-- `STATUS.ACCERR` of a state. -/
def State.accErr (s : State) : Bool := accErrBit s.status

end Sys2Proof.Machine
end

