-- ==== Sys2Proof/Machine/Operands.lean ====
section
/-! DEFINITION. Operand forms: the bytes of a word, and the cell that a host address names with the width a written value
must fit (spec/20_memory.md R30, R32, R34, R37). -/

namespace Sys2Proof.Machine

/-- `v[7:0]`. -/
def lowByte (w : Word) : Byte := w.extractLsb' 0 8

/-- `v[15:8]`. -/
def highByte (w : Word) : Byte := w.extractLsb' 8 8

/-- `hi ‖ lo`: the received checksum is assembled so (R55). -/
def joinBytes (hi lo : Byte) : Word := hi ++ lo

/-- `zext_16` of a byte (00_scope.md section 6, R32). -/
def zextByte (b : Byte) : Word := b.setWidth 16

/-- `zext_16` of a 9-bit length (R32). -/
def zextLength (l : Length) : Word := l.setWidth 16

/-- A cell of the address map (R30). -/
inductive Cell where
  | cmd
  | status
  | crc
  | addr
  | fc
  | plen
  | flen
  /-- 0x007 to 0x0FF (R31). -/
  | reserved
  /-- `BUF[k]`. -/
  | buf (k : Nat)
  deriving DecidableEq, Repr

/-- The map of R30. -/
def cellOf (a : CellAddr) : Cell :=
  match a.toNat with
  | 0x000 => .cmd
  | 0x001 => .status
  | 0x002 => .crc
  | 0x003 => .addr
  | 0x004 => .fc
  | 0x005 => .plen
  | 0x006 => .flen
  | n     => if n < Config.bufBase then .reserved else .buf (n - Config.bufBase)

/-- `v[7:0]` where `v` ≤ 0x00FF, else nothing: the write is refused (R32, R34). -/
def fitByte (v : Word) : Option Byte := if v.toNat ≤ 0x00FF then some (v.setWidth 8) else none

/-- `v[8:0]` where `v` ≤ 0x01FF, else nothing: the write is refused (R32, R34). -/
def fitLength (v : Word) : Option Length := if v.toNat ≤ 0x01FF then some (v.setWidth 9) else none

end Sys2Proof.Machine
end

