-- ==== Sys2Proof/Machine/Ops.lean ====
section
/-! DEFINITION. The named operations over the buffer and the register cells, and reporting an error, `raise`: what an ISA
calls taking an exception (spec/10_state.md R24, spec/00_scope.md section 6, spec/60_exceptions.md R146). There is no return from
it (R150). -/

namespace Sys2Proof.Machine

/-- The value of `BUF[k]` when its written mark is set (R24). -/
def Memory.get : Memory → Nat → Option Byte
  | [], _ => none
  | (j, b) :: m, k => if k = j then some b else Memory.get m k

/-- `BUF[k] <- b; written(k) <- true`, keeping addresses rising (R24, R34). -/
def Memory.put : Memory → Nat → Byte → Memory
  | [], k, b => [(k, b)]
  | (j, c) :: m, k, b =>
    if k < j then (k, b) :: (j, c) :: m
    else if k = j then (k, b) :: m
    else (j, c) :: Memory.put m k b

/-- The canonical form: cell numbers strictly rising and each below 256. No entry can equal what an unlisted cell reads
as, since that is no value (log 2). -/
abbrev Memory.wf (m : Memory) : Prop :=
  m.Pairwise (fun x y => x.1 < y.1) ∧ ∀ c ∈ m, c.1 < Config.bufSize

/-- The written mark of `BUF[k]` (R24). -/
def written (m : Memory) (k : Nat) : Bool := (Memory.get m k).isSome

/-- The block or the host reads `BUF[k]`: a cell whose mark is clear has no defined result (R24, U1; log 1). -/
def loadByte (m : Memory) (k : Nat) : Except Fault Byte :=
  match Memory.get m k with
  | some b => .ok b
  | none   => .error (.undefinedRead k)

/-- `MemRead(k, n)` of 00_scope.md section 6. The fault names the lowest unwritten cell (log 1). -/
def memRead (m : Memory) (k : Nat) : Nat → Except Fault (List Byte)
  | 0     => .ok []
  | n + 1 => do
    let b ← loadByte m k
    let rest ← memRead m (k + 1) n
    return b :: rest

/-- `x[STATUS] <- v`. -/
def State.setStatus (s : State) (v : Word) : State := { s with status := v }

/-- `x[CRC] <- v`. -/
def State.setCrc (s : State) (v : Word) : State := { s with crc := v }

/-- `x[ADDR] <- v`. -/
def State.setAddr (s : State) (v : Byte) : State := { s with addr := v }

/-- `x[FC] <- v`. -/
def State.setFc (s : State) (v : Byte) : State := { s with fc := v }

/-- `x[PLEN] <- v`. -/
def State.setPlen (s : State) (v : Length) : State := { s with plen := v }

/-- `x[FLEN] <- v`. -/
def State.setFlen (s : State) (v : Length) : State := { s with flen := v }

/-- `BUF[k] <- b`, with its written mark. -/
def State.store (s : State) (k : Nat) (b : Byte) : State := { s with buf := Memory.put s.buf k b }

/-- The model's own: what is left to take. -/
def State.setPending (s : State) (es : List Event) : State := { s with pending := es }

/-- The model's own: a `Read` returns `v` (log 5). -/
def State.answer (s : State) (v : Word) : State := { s with answers := v :: s.answers }

/-- Every register cell at its reset value, `BUF` and its marks kept: what `CLR` and reset have in common (R101, R162). -/
def State.clearRegisters (s : State) : State :=
  { s with status := 0x0000, crc := Config.crcInit, addr := 0x00, fc := 0x00, plen := 0, flen := 0 }

/-- A refused access or command: `STATUS.ACCERR <- 1`, nothing else changes (R22, R35, R147). -/
def refuse (s : State) : State := s.setStatus (withAccErr s.status)

/-- `raise kind` in command `c`: `STATUS.ERR <- code(kind)`, `STATUS.LAST` names the command, the command ends. No control
transfer and no saved state (R146). -/
def raise (kind : ErrorKind) (c : CodecCommand) (s : State) : State :=
  s.setStatus (withOutcome s.status (errCode kind) (lastCode c))

/-- A codec command succeeds: `STATUS.ERR <- 0`, `STATUS.LAST` names the command (R20, R83, R93). -/
def succeed (c : CodecCommand) (s : State) : State :=
  s.setStatus (withOutcome s.status errNone (lastCode c))

/-- A command's pseudocode as an outcome: the state it leaves, or the fault of an undefined read. -/
def outcome : Except Fault State → Host.Outcome State Fault Refusal
  | .ok s    => .next s
  | .error f => .fault f

end Sys2Proof.Machine
end

