-- ==== Sys2Proof/Machine/Checksum.lean ====
section
/-! DEFINITION. The checksum engine: the functions `crc_update` and `crc16` (spec/40_crc_engine.md R70 to R73, R77) and the
commands `CRC.INIT` and `CRC.BYTE` (R75, R76). -/

namespace Sys2Proof.Machine

/-- One turn of the loop of R71: test bit 0, shift right, fold in the constant when the tested bit was 1. -/
def crcShift (r : Word) : Word :=
  if r.getLsbD 0 then (r >>> 1) ^^^ Config.crcPoly else r >>> 1

/-- `n` turns of the loop of R71. -/
def crcShifts : Nat → Word → Word
  | 0, r     => r
  | n + 1, r => crcShifts n (crcShift r)

/-- `crc_update(c, b)` (R71; log 8). -/
def crcUpdate (c : Word) (b : Byte) : Word := crcShifts 8 (c ^^^ zextByte b)

/-- `crc16(s)`: the left fold from the initial value, with nothing done after the last byte (R72, R73). -/
def crc16 (s : List Byte) : Word := s.foldl crcUpdate Config.crcInit

/-- `T[i] = crc_update(0x0000, i)` (R77). -/
def crcTable (i : Byte) : Word := crcUpdate 0x0000 i

/-- `CRC.INIT`: `x[CRC] <- 0xFFFF` (R75). -/
def execCrcInit (s : State) : Host.Outcome State Fault Refusal := .next (s.setCrc Config.crcInit)

/-- `CRC.BYTE imm8`: `x[CRC] <- crc_update(x[CRC], imm8)` (R76). -/
def execCrcByte (imm8 : Byte) (s : State) : Host.Outcome State Fault Refusal :=
  .next (s.setCrc (crcUpdate s.crc imm8))

end Sys2Proof.Machine
end

