-- ==== Sys2Proof/Machine/Control.lean ====
section
/-! DEFINITION. The control commands `NOP` and `CLR` (spec/43_control.md R100, R101). -/

namespace Sys2Proof.Machine

/-- `NOP`: no state changes (R100). -/
def execNop (s : State) : Host.Outcome State Fault Refusal := .next s

/-- `CLR`: every register cell to its reset value, `BUF` and its written marks kept (R101). -/
def execClr (s : State) : Host.Outcome State Fault Refusal := .next s.clearRegisters

end Sys2Proof.Machine
end

