-- ==== Sys2Proof/Machine/Frame.lean ====
section
/-! DEFINITION. The frame codec: the wire format (spec/30_encoding.md R50 to R57), the functions `encode` and `decode` on byte
sequences of any length (spec/41_frame_encode.md R80, spec/42_frame_decode.md R90) and the commands `ENC` and `DEC` (R83, R93). -/

namespace Sys2Proof.Machine

/-- The parsed fields of a frame (R50, R90). -/
structure Frame where
  address      : Byte
  functionCode : Byte
  payload      : List Byte
  deriving DecidableEq, Repr

/-- band3's closed enumeration of function codes (R54). The block carries the byte and does not look at it (R82, R92). -/
inductive FunctionCode where
  | readCoils
  | readDiscreteInputs
  | readHoldingRegisters
  | readInputRegisters
  | writeSingleCoil
  | writeSingleRegister
  | writeMultipleCoils
  | writeMultipleRegisters
  deriving DecidableEq, Repr

/-- The byte of a function code (R54). -/
def functionCodeByte : FunctionCode → Byte
  | .readCoils              => 0x01
  | .readDiscreteInputs     => 0x02
  | .readHoldingRegisters   => 0x03
  | .readInputRegisters     => 0x04
  | .writeSingleCoil        => 0x05
  | .writeSingleRegister    => 0x06
  | .writeMultipleCoils     => 0x0F
  | .writeMultipleRegisters => 0x10

/-- The function code of an exception response: the requested code with bit 7 set (R54). -/
def exceptionByte (f : FunctionCode) : Byte := functionCodeByte f ||| 0x80

/-- The checksum field of a frame: low byte first, then high byte (R37, R50, R55). -/
def checksumField (c : Word) : List Byte := [lowByte c, highByte c]

/-- `encode(a, f, p)` (R80, R81). `a` is an integer, as band3 has it. -/
def frameEncode (a : Int) (f : Byte) (p : List Byte) : Except ErrorKind (List Byte) :=
  if a < 0 ∨ a > Config.addrMax ∨ p.length > Config.payloadMax then .error .encodingError
  else
    let body := [BitVec.ofInt 8 a, f] ++ p
    .ok (body ++ checksumField (crc16 body))

/-- `decode(s)`: the length is tested first, the checksum second (R90, R91). -/
def frameDecode (s : List Byte) : Except ErrorKind Frame :=
  let l := s.length
  if l < Config.frameMin then .error .truncatedFrameError
  else
    let c := crc16 (s.take (l - 2))
    let r := joinBytes (s.getD (l - 1) 0) (s.getD (l - 2) 0)
    if c ≠ r then .error .checksumError
    else .ok ⟨s.getD 0 0, s.getD 1 0, (s.take (l - 2)).drop 2⟩

/-- `ENC` fails: `ADDR` > 247 or `PLEN` > 252, unsigned (R81, R83, R85). -/
def encodingFails (s : State) : Bool := s.addr.toNat > Config.addrMax || s.plen.toNat > Config.payloadMax

/-- The offset of the checksum low byte that `ENC` stores, `n + 2` (R44, R83); the high byte goes to the next cell. -/
def encChecksumOffset (s : State) : Nat := s.plen.toNat + 2

/-- The cells `ENC` stores to: none when it fails (R84), else 0, 1, `n + 2` and `n + 3` (R44, R83). -/
def encStores (s : State) : List Nat :=
  if encodingFails s then [] else [0, 1, encChecksumOffset s, encChecksumOffset s + 1]

/-- The pseudocode of `ENC` (R83). -/
def encBody (s : State) : Except Fault State :=
  if encodingFails s then .ok (raise .encodingError .enc s)
  else do
    let n := s.plen.toNat
    let s := s.store 0 s.addr
    let s := s.store 1 s.fc
    let body ← memRead s.buf 0 (n + 2)
    let c := crc16 body
    let s := s.store (encChecksumOffset s) (lowByte c)
    let s := s.store (encChecksumOffset s + 1) (highByte c)
    let s := s.setCrc c
    let s := s.setFlen (BitVec.ofNat 9 (n + 4))
    return succeed .enc s

/-- `ENC`: encode a frame in place (R83, R84). -/
def execEnc (s : State) : Host.Outcome State Fault Refusal := outcome (encBody s)

/-- The pseudocode of `DEC` (R93): over-length, then truncation, then the checksum (R149). -/
def decBody (s : State) : Except Fault State :=
  let l := s.flen.toNat
  if l > Config.bufSize then .ok (raise .overlengthError .dec s)
  else if l < Config.frameMin then .ok (raise .truncatedFrameError .dec s)
  else do
    let body ← memRead s.buf 0 (l - 2)
    let c := crc16 body
    let lo ← loadByte s.buf (l - 2)
    let hi ← loadByte s.buf (l - 1)
    let r := joinBytes hi lo
    let s := s.setCrc c
    if c ≠ r then return raise .checksumError .dec s
    else do
      let a ← loadByte s.buf 0
      let f ← loadByte s.buf 1
      let s := s.setAddr a
      let s := s.setFc f
      let s := s.setPlen (BitVec.ofNat 9 (l - 4))
      return succeed .dec s

/-- `DEC`: check and parse the raw bytes in the buffer (R93 to R96). -/
def execDec (s : State) : Host.Outcome State Fault Refusal := outcome (decBody s)

end Sys2Proof.Machine
end

