-- ==== Sys2Proof/Machine/Transaction.lean ====
section
/-! DEFINITION. The host transactions `Read` and `Write` and the reset event, each as one atomic change of the block
(spec/20_memory.md R33 to R36, R40; spec/70_reset_and_hazards.md R160). -/

namespace Sys2Proof.Machine

/-- `Read(a)` (R33). A refused read returns 0x0000 and sets `ACCERR` (R31, R35). -/
def hostRead (a : CellAddr) (s : State) : Host.Outcome State Fault Refusal :=
  match cellOf a with
  | .cmd      => .next (s.answer 0x0000)
  | .status   => .next (s.answer s.status)
  | .crc      => .next (s.answer s.crc)
  | .addr     => .next (s.answer (zextByte s.addr))
  | .fc       => .next (s.answer (zextByte s.fc))
  | .plen     => .next (s.answer (zextLength s.plen))
  | .flen     => .next (s.answer (zextLength s.flen))
  | .reserved => .next ((refuse s).answer 0x0000)
  | .buf k    =>
    match loadByte s.buf k with
    | .ok b    => .next (s.answer (zextByte b))
    | .error f => .fault f

/-- `Write(CMD, w)`: run the command `w` selects, or refuse a reserved word (R18, R60, R61). -/
def command (w : Word) (s : State) : Host.Outcome State Fault Refusal :=
  match decode w with
  | .ok i    => exec i s
  | .error _ => .next (refuse s)

/-- A write to a cell that takes a byte: stored when the value fits, else refused (R34). -/
def writeByte (v : Word) (s : State) (put : Byte → State) : State :=
  match fitByte v with
  | some b => put b
  | none   => refuse s

/-- A write to a cell that takes a length: stored when the value fits, else refused (R34). -/
def writeLength (v : Word) (s : State) (put : Length → State) : State :=
  match fitLength v with
  | some l => put l
  | none   => refuse s

/-- `Write(a, v)` (R34). -/
def hostWrite (a : CellAddr) (v : Word) (s : State) : Host.Outcome State Fault Refusal :=
  match cellOf a with
  | .cmd      => command v s
  | .status   => .next (refuse s)
  | .crc      => .next (refuse s)
  | .addr     => .next (writeByte v s s.setAddr)
  | .fc       => .next (writeByte v s s.setFc)
  | .plen     => .next (writeLength v s s.setPlen)
  | .flen     => .next (writeLength v s s.setFlen)
  | .reserved => .next (refuse s)
  | .buf k    => .next (writeByte v s (s.store k))

/-- The reset event: the block's state becomes the one of R25 (R160, R162). What the host has still to issue and what its
reads returned are not the block's and stay (log 6). -/
def hostReset (s : State) : Host.Outcome State Fault Refusal :=
  .next { State.reset with pending := s.pending, answers := s.answers }

/-- One event, finished before the next is taken (R40). -/
def serve (e : Event) (s : State) : Host.Outcome State Fault Refusal :=
  match e with
  | .read a    => hostRead a s
  | .write a v => hostWrite a v s
  | .reset     => hostReset s

/-- The cell address of `CMD` (R30). -/
def cmdAddr : CellAddr := 0x000

/-- The transaction that presents word `w` to the block: `Write(CMD, w)` (R18). -/
def issue (w : Word) : Event := .write cmdAddr w

end Sys2Proof.Machine
end

