-- ==== Sys2Proof/Machine/Step.lean ====
section
/-! DEFINITION. One step of the machine: the block takes the next event and finishes it (spec/20_memory.md R40). The block has no
program counter and fetches nothing: the host starts every command by a write to `CMD` (spec/10_state.md R12). -/

namespace Sys2Proof.Machine

/-- Take the first pending event and finish it (R40). With nothing pending, nothing is in flight and nothing changes (R170;
log 4). -/
def step (s : State) : Host.Outcome State Fault Refusal :=
  match s.pending with
  | []        => .next s
  | e :: rest => serve e (s.setPending rest)

/-- `s` with `Write(CMD, w)` as the next transaction, so that the very next step runs the command of the table word `w`
(log 7). -/
def State.withFetchWord (s : State) (nbits w : Nat) : State :=
  s.setPending (issue (BitVec.ofNat 16 (w % 2 ^ nbits)) :: s.pending)

end Sys2Proof.Machine
end

