-- ==== Sys2Proof/Laws/PerInstr.lean ====
section
/-! SUPPORT. Statements about every command as syntax, one lemma per constructor of `Instr`. -/

namespace Sys2Proof.Laws.EncodeMatchesRow

/-- The word of a command matches the command's own row of the opcode map (spec/30_encoding.md R60). -/
def Statement (i : Instr) : Prop := i.row.selects (encode i) = true

theorem nop : Statement .nop := rfl

theorem crcInit : Statement .crcInit := rfl

theorem crcByte (imm8 : Byte) : Statement (.crcByte imm8) := by
  revert imm8
  unfold Statement
  decide

theorem enc : Statement .enc := rfl

theorem dec : Statement .dec := rfl

theorem clr : Statement .clr := rfl

end Sys2Proof.Laws.EncodeMatchesRow
end

