-- ==== Sys2Proof/Machine/HostProgram.lean ====
section
/-! DEFINITION. The notation for host programs, as lists of transactions (spec/30_encoding.md R63, R64, R38; how the host drives
the block: spec/48_context_host_software.md R134). It carries no semantics of its own. -/

namespace Sys2Proof.Machine

/-- `WR cell, value` (R63). -/
def wr (a : CellAddr) (v : Word) : Event := .write a v

/-- `RD cell` (R63). -/
def rd (a : CellAddr) : Event := .read a

/-- A line that issues a command (R63). -/
def cmd (i : Instr) : Event := issue (encode i)

/-- The address of `STATUS` (R30). -/
def statusAddr : CellAddr := 0x001

/-- The address of `CRC` (R30). -/
def crcAddr : CellAddr := 0x002

/-- The address of `ADDR` (R30). -/
def addrAddr : CellAddr := 0x003

/-- The address of `FC` (R30). -/
def fcAddr : CellAddr := 0x004

/-- The address of `PLEN` (R30). -/
def plenAddr : CellAddr := 0x005

/-- The address of `FLEN` (R30). -/
def flenAddr : CellAddr := 0x006

/-- The address of `BUF[k]`, k = 0 to 255 (R30). -/
def bufAddr (k : Nat) : CellAddr := BitVec.ofNat 9 (Config.bufBase + k)

/-- `LDBUF k, b0, …, b(m-1)` (R64). -/
def ldbuf (k : Nat) : List Byte → List Event
  | []      => []
  | b :: bs => wr (bufAddr k) (zextByte b) :: ldbuf (k + 1) bs

/-- `CHECKSUM b0, …, b(m-1)` (R64). -/
def checksumProgram (bs : List Byte) : List Event :=
  cmd .crcInit :: (bs.map (fun b => cmd (.crcByte b)) ++ [rd crcAddr])

/-- `ENCODE a, f, p0, …, p(n-1)` (R64). -/
def encodeProgram (a f : Byte) (p : List Byte) : List Event :=
  [wr addrAddr (zextByte a), wr fcAddr (zextByte f)] ++ ldbuf 2 p ++
    [wr plenAddr (BitVec.ofNat 16 p.length), cmd .enc, rd statusAddr]

/-- `DECODE s0, …, s(L-1)` (R64). -/
def decodeProgram (bs : List Byte) : List Event :=
  ldbuf 0 bs ++ [wr flenAddr (BitVec.ofNat 16 bs.length), cmd .dec, rd statusAddr]

/-- A 16-bit register value inside a payload: high byte first, the opposite of the checksum field. It binds the host; the
block does not interpret payload bytes (R38, R57). -/
def registerBytes (v : Word) : List Byte := [highByte v, lowByte v]

end Sys2Proof.Machine
end

