-- ==== Sys2Proof/Safety.lean ====
section
/-! DEFINITION. The terms in which claims are stated: the invariant of the state, runs, clean ends of a run, the accesses the spec
refuses and the steps that have no defined result. -/

namespace Sys2Proof.Machine

/-- The pairs (`LAST`, `ERR`) that occur (spec/10_state.md R21). -/
def legalPairs : List (BitVec 2 × BitVec 3) :=
  [(0, 0), (1, 0), (1, 1), (2, 0), (2, 2), (2, 3), (2, 4)]

/-- The invariant: the buffer keeps its canonical form, the reserved bits of `STATUS` read 0 (R19, U7) and its outcome fields
hold a pair that occurs (R21, U8). -/
abbrev State.Inv (s : State) : Prop :=
  Memory.wf s.buf ∧ s.status &&& statusReservedMask = 0 ∧ (s.last, s.err) ∈ legalPairs

/-- `n` steps of the machine, stopping at the first that has no next state (`Host.Core.run` of the machine:
Laws/Step.lean `run_eq_core_run`). -/
def run : Nat → State → Host.Outcome State Fault Refusal
  | 0, s => .next s
  | n + 1, s =>
    match step s with
    | .next t    => run n t
    | .fault f   => .fault f
    | .refused r => .refused r

/-- A clean end of a run: every transaction is done and `ACCERR` is 0 (R170). A run that reads an unwritten buffer cell has no
end in the model. -/
abbrev cleanEnd (s : State) : Prop := s.pending = [] ∧ s.accErr = false

/-- The cells from `k` on hold the bytes `bs`, all of them written. -/
abbrev holds (m : Memory) (k : Nat) (bs : List Byte) : Prop :=
  ∀ i < bs.length, Memory.get m (k + i) = bs[i]?

/-- Some cell of `BUF[k .. k+n)` has its written mark clear. -/
def unwrittenIn (m : Memory) (k n : Nat) : Bool := (List.range n).any (fun i => !written m (k + i))

/-- The command reads an unwritten buffer cell, so that it has no defined result (R24, R83, R93). -/
def undefinedCommand (i : Instr) (s : State) : Bool :=
  match i with
  | .nop       => false
  | .crcInit   => false
  | .crcByte _ => false
  | .enc       => s.addr.toNat ≤ 247 && s.plen.toNat ≤ 252 && unwrittenIn s.buf 2 s.plen.toNat
  | .dec       => 4 ≤ s.flen.toNat && s.flen.toNat ≤ 256 && unwrittenIn s.buf 0 s.flen.toNat
  | .clr       => false

/-- The event reads an unwritten buffer cell, so that it has no defined result (R24, R33). -/
def undefinedEvent (e : Event) (s : State) : Bool :=
  match e with
  | .read a    => 0x100 ≤ a.toNat && !written s.buf (a.toNat - 0x100)
  | .write a v => a == cmdAddr && ((v == 0x1000 && undefinedCommand .enc s) || (v == 0x2000 && undefinedCommand .dec s))
  | .reset     => false

/-- The complete list of the refused accesses, (a) to (f) of R35. -/
def refusedEvent (e : Event) : Bool :=
  match e with
  | .read a    => 0x007 ≤ a.toNat && a.toNat ≤ 0x0FF
  | .write a v =>
    (0x007 ≤ a.toNat && a.toNat ≤ 0x0FF)
      || (a.toNat == 0x001 || a.toNat == 0x002)
      || ((a.toNat == 0x003 || a.toNat == 0x004 || 0x100 ≤ a.toNat) && 0x00FF < v.toNat)
      || ((a.toNat == 0x005 || a.toNat == 0x006) && 0x01FF < v.toNat)
      || (a.toNat == 0x000 && !commandWordWellFormed v)
  | .reset     => false

/-- An event that may stand inside a checksum stream: a read, a write to a cell other than `CMD`, or a word written to `CMD` that
is not one of `CRC.INIT`, `ENC`, `DEC`, `CLR`: `CRC.BYTE`, `NOP` or a reserved word (R69). -/
def streamEvent (e : Event) : Bool :=
  match e with
  | .read _    => true
  | .write a v => a != cmdAddr || (v != 0x0100 && v != 0x1000 && v != 0x2000 && v != 0x3000)
  | .reset     => false

/-- The bytes that a stream folds into `CRC`, in order: those of its `CRC.BYTE` words (R69). -/
def streamedBytes (es : List Event) : List Byte :=
  es.filterMap (fun e => match e with
    | .read _    => none
    | .write a v => if a = cmdAddr ∧ opcodeField v = 0x02 then some (immField v) else none
    | .reset     => none)

end Sys2Proof.Machine
end

