-- ==== Sys2Proof/Certificates/Slice0/Obligations.lean ====
section
/-! DEFINITION. The statements about the block, from the numbered rules of spec/. -/

open Sys2Proof Sys2Proof.Machine

/-! ## Command words -/

/-- R18. A write to `CMD` runs the command its word selects or refuses the word; `CMD` stores nothing and reads as 0x0000
with no effect. -/
def Obligations.CmdWriteRunsSelectedCommand : Prop :=
  (∀ (s : State) (rest : List Event) (w : Word) (i : Instr),
      s.pending = .write 0x000 w :: rest → decode w = .ok i → step s = exec i { s with pending := rest }) ∧
  (∀ (s : State) (rest : List Event) (w : Word) (r : ReservedWord),
      s.pending = .write 0x000 w :: rest → decode w = .error r →
        step s = .next { s with pending := rest, status := s.status ||| 0x0080 }) ∧
  (∀ (s : State) (rest : List Event),
      s.pending = .read 0x000 :: rest → step s = .next { s with pending := rest, answers := 0x0000 :: s.answers })

/-- The word of a table row placed by `withFetchWord` is what the very next step runs (log 7). -/
def Obligations.FetchWordIsTheNextCommand : Prop :=
  ∀ (s : State) (w : Nat) (i : Instr), decodeTableWord 16 w = some i → step (s.withFetchWord 16 w) = exec i s

/-- Words written out from the encodings of R60 decode to their commands. -/
def Obligations.CommandWordsDecode : Prop :=
  decode 0x0000 = .ok .nop ∧ decode 0x0100 = .ok .crcInit ∧ decode 0x0201 = .ok (.crcByte 0x01) ∧
  decode 0x02FF = .ok (.crcByte 0xFF) ∧ decode 0x1000 = .ok .enc ∧ decode 0x2000 = .ok .dec ∧ decode 0x3000 = .ok .clr

/-- Decoding and encoding agree in both directions, for every command and every word: no bit is dropped and each word has
one meaning (R58 to R60). -/
def Obligations.DecodeAndEncodeAgree : Prop :=
  (∀ i : Instr, decode (encode i) = .ok i) ∧ (∀ (w : Word) (i : Instr), decode w = .ok i → encode i = w)

/-- A word decodes to the command of a row exactly when `word and mask = match`, and at most one row matches (R60). -/
def Obligations.OpcodeMapSelectsCommand : Prop :=
  (∀ (w : Word) (r : OpcodeRow), r ∈ opcodeMap → (w &&& r.mask = r.pattern ↔ ∃ i, decode w = .ok i ∧ i.row = r)) ∧
  (∀ (w : Word) (r q : OpcodeRow), r ∈ opcodeMap → q ∈ opcodeMap → w &&& r.mask = r.pattern → w &&& q.mask = q.pattern →
      r = q)

/-- R61. Which words are reserved, and that writing one to `CMD` sets `ACCERR` and changes nothing else. -/
def Obligations.ReservedWordOnlySetsAccErr : Prop :=
  (∀ w : Word, (∀ r ∈ opcodeMap, w &&& r.mask ≠ r.pattern) ↔
      (opcodeField w ∉ [0x00, 0x01, 0x02, 0x10, 0x20, 0x30] ∨
        (opcodeField w ∈ [0x00, 0x01, 0x10, 0x20, 0x30] ∧ immField w ≠ 0x00))) ∧
  (∀ (s : State) (rest : List Event) (w : Word), s.pending = .write 0x000 w :: rest →
      (∀ r ∈ opcodeMap, w &&& r.mask ≠ r.pattern) →
        step s = .next { s with pending := rest, status := s.status ||| 0x0080 })

/-! ## Control and checksum commands -/

/-- R100. `NOP` completes in every state and changes nothing; its word is 0x0000, and 0x00bb with bb ≠ 0 is reserved. -/
def Obligations.NopChangesNothing : Prop :=
  (∀ s : State, exec .nop s = .next s) ∧ decode 0x0000 = .ok .nop ∧
  (∀ b : Byte, b ≠ 0x00 → decode (0x0000 ||| b.setWidth 16) = .error (.immediate 0x00 b))

/-- R75. `CRC.INIT` completes in every state, sets `CRC` to 0xFFFF and changes nothing else; its word is 0x0100, and 0x01bb
with bb ≠ 0 is reserved. -/
def Obligations.CrcInitSetsInitialValue : Prop :=
  (∀ s : State, exec .crcInit s = .next { s with crc := 0xFFFF }) ∧ decode 0x0100 = .ok .crcInit ∧
  (∀ b : Byte, b ≠ 0x00 → decode (0x0100 ||| b.setWidth 16) = .error (.immediate 0x01 b))

/-- R76. `CRC.BYTE` completes in every state with every byte, folds the byte into `CRC` and changes nothing else; its words
are `0x0200 or imm8`. -/
def Obligations.CrcByteFoldsOneByte : Prop :=
  (∀ (b : Byte) (s : State), exec (.crcByte b) s = .next { s with crc := crcUpdate s.crc b }) ∧
  (∀ b : Byte, decode (0x0200 ||| b.setWidth 16) = .ok (.crcByte b)) ∧
  crcUpdate 0xFFFF 0x00 = 0x40BF ∧ crcUpdate 0xFFFF 0x01 = 0x807E

/-- R101. `CLR` completes in every state, gives every register cell its reset value, keeps `BUF` and its written marks, and is
the only command that clears `ACCERR`. It differs from reset in `BUF` only. -/
def Obligations.ClrRestoresRegisterCells : Prop :=
  (∀ s : State, exec .clr s =
      .next { s with status := 0x0000, crc := 0xFFFF, addr := 0x00, fc := 0x00, plen := 0, flen := 0 }) ∧
  decode 0x3000 = .ok .clr ∧
  (∀ (i : Instr) (s t : State), exec i s = .next t → i ≠ .clr → s.accErr = true → t.accErr = true) ∧
  (∀ s t u : State, exec .clr s = .next t → hostReset s = .next u → u = { t with buf := [] })

/-! ## Reset -/

/-- R25. The values after reset. -/
def Obligations.ResetValues : Prop :=
  State.reset.status = 0x0000 ∧ State.reset.err = 0 ∧ State.reset.last = 0 ∧ State.reset.accErr = false ∧
  State.reset.crc = 0xFFFF ∧ State.reset.addr = 0x00 ∧ State.reset.fc = 0x00 ∧ State.reset.plen = 0 ∧
  State.reset.flen = 0 ∧ ∀ k, written State.reset.buf k = false

/-- The reset event gives the block the state of R25 whatever it was, with every written mark clear. That the event stands in
the list of events, and that the rest of that list and the returned values stay, is the model's choice (log 6). -/
def Obligations.ResetEventRestoresResetState : Prop :=
  ∀ (s : State) (rest : List Event), s.pending = .reset :: rest →
    step s = .next { State.reset with pending := rest, answers := s.answers }

/-! ## `ENC` -/

/-- `ENC` completes on every legal address, payload length and written payload, and then realises `encode`: the frame stands in
`BUF[0 .. FLEN)`, `CRC` and `FLEN` follow it, and everything else is unchanged (R83). -/
def Obligations.EncBuildsEncodedFrame : Prop :=
  ∀ (s : State) (p : List Byte), s.addr.toNat ≤ 247 → p.length = s.plen.toNat → p.length ≤ 252 → holds s.buf 2 p →
    ∃ (t : State) (frame : List Byte),
      exec .enc s = .next t ∧ frameEncode s.addr.toNat s.fc p = .ok frame ∧
      t.flen.toNat = p.length + 4 ∧ frame.length = p.length + 4 ∧ holds t.buf 0 frame ∧
      (∀ k, p.length + 4 ≤ k → Memory.get t.buf k = Memory.get s.buf k) ∧
      t.crc = crc16 ([s.addr, s.fc] ++ p) ∧
      t.err = 0 ∧ t.last = 1 ∧ t.accErr = s.accErr ∧ t.status &&& 0xFF48 = s.status &&& 0xFF48 ∧
      t.addr = s.addr ∧ t.fc = s.fc ∧ t.plen = s.plen ∧ t.pending = s.pending ∧ t.answers = s.answers

/-- R84. A failed `ENC` (address above 247 or payload length above 252) completes, reports `EncodingError` and changes
`STATUS.ERR` and `STATUS.LAST` and nothing else. -/
def Obligations.FailedEncChangesOnlyOutcome : Prop :=
  ∀ s : State, 247 < s.addr.toNat ∨ 252 < s.plen.toNat →
    ∃ t : State, exec .enc s = .next t ∧ t = { s with status := t.status } ∧ t.err = 1 ∧ t.last = 1 ∧
      t.accErr = s.accErr ∧ t.status &&& 0xFF48 = s.status &&& 0xFF48

/-- The frame of `ENC`: the cells it stores to are those of `encStores`, none on failure, else 0, 1, `PLEN + 2`, `PLEN + 3`;
every other cell of `BUF`, and every register but `CRC`, `FLEN` (on success) and the outcome fields, is unchanged (R44, R83,
R84). -/
def Obligations.EncFrame : Prop :=
  ∀ s t : State, exec .enc s = .next t →
    encStores s = (if 247 < s.addr.toNat ∨ 252 < s.plen.toNat then []
      else [0, 1, s.plen.toNat + 2, s.plen.toNat + 3]) ∧
    (∀ k, k ∉ encStores s → Memory.get t.buf k = Memory.get s.buf k) ∧
    (encStores s = [] → t.buf = s.buf ∧ t.crc = s.crc ∧ t.flen = s.flen) ∧
    t.addr = s.addr ∧ t.fc = s.fc ∧ t.plen = s.plen ∧ t.pending = s.pending ∧ t.answers = s.answers ∧
    t.accErr = s.accErr ∧ t.status &&& 0xFF48 = s.status &&& 0xFF48

/-! ## `DEC` -/

/-- R94. For every length up to 256 `DEC` completes on written raw bytes and agrees with `decode`: the same outcome kind, and on
success the same address, function code and payload. Above 256 it reports `OverlengthError` and changes only the outcome
fields. No frame that `encode` produces is that long. -/
def Obligations.DecAgreesWithDecode : Prop :=
  (∀ (s : State) (bs : List Byte) (f : Frame), bs.length = s.flen.toNat → bs.length ≤ 256 → holds s.buf 0 bs →
      frameDecode bs = .ok f →
        ∃ t : State, exec .dec s = .next t ∧ t.addr = f.address ∧ t.fc = f.functionCode ∧
          t.plen.toNat = f.payload.length ∧ holds t.buf 2 f.payload ∧ t.err = 0 ∧ t.last = 2) ∧
  (∀ (s : State) (bs : List Byte) (e : ErrorKind), bs.length = s.flen.toNat → bs.length ≤ 256 → holds s.buf 0 bs →
      frameDecode bs = .error e → ∃ t : State, exec .dec s = .next t ∧ t.err = errCode e ∧ t.last = 2) ∧
  (∀ s : State, 256 < s.flen.toNat →
      ∃ t : State, exec .dec s = .next t ∧ t = { s with status := t.status } ∧ t.err = 4 ∧ t.last = 2 ∧
        t.accErr = s.accErr ∧ t.status &&& 0xFF48 = s.status &&& 0xFF48) ∧
  (∀ (a : Int) (f : Byte) (p frame : List Byte), frameEncode a f p = .ok frame → frame.length ≤ 256)

/-- `DEC` on a good frame: the exact next state (R93, success). -/
def Obligations.DecGoodFrameNextState : Prop :=
  ∀ (s : State) (a f lo hi : Byte) (p : List Byte), p.length + 4 = s.flen.toNat → p.length ≤ 252 →
    holds s.buf 0 ([a, f] ++ p ++ [lo, hi]) → crc16 ([a, f] ++ p) = hi ++ lo →
      ∃ t : State, exec .dec s = .next t ∧
        t = { s with status := t.status, crc := hi ++ lo, addr := a, fc := f, plen := BitVec.ofNat 9 p.length } ∧
        t.err = 0 ∧ t.last = 2 ∧ t.accErr = s.accErr ∧ t.status &&& 0xFF48 = s.status &&& 0xFF48

/-- `DEC` on raw bytes whose checksum does not match: `ChecksumError`, `CRC` holds the recomputed checksum and nothing else but
the outcome fields changes (R93, R144). -/
def Obligations.DecChecksumErrorNextState : Prop :=
  ∀ (s : State) (body : List Byte) (lo hi : Byte), body.length + 2 = s.flen.toNat → 2 ≤ body.length →
    body.length ≤ 254 → holds s.buf 0 (body ++ [lo, hi]) → crc16 body ≠ hi ++ lo →
      ∃ t : State, exec .dec s = .next t ∧ t = { s with status := t.status, crc := crc16 body } ∧
        t.err = 3 ∧ t.last = 2 ∧ t.accErr = s.accErr ∧ t.status &&& 0xFF48 = s.status &&& 0xFF48

/-- R143. `TruncatedFrameError` depends on the length alone: with `FLEN` below 4 `DEC` completes and reports it whatever `BUF` holds, written or
not, and with `FLEN` of 4 or more it never does. -/
def Obligations.TruncationDependsOnLengthAlone : Prop :=
  (∀ s : State, s.flen.toNat < 4 →
      ∃ t : State, exec .dec s = .next t ∧ t = { s with status := t.status } ∧ t.err = 2 ∧ t.last = 2 ∧
        t.accErr = s.accErr ∧ t.status &&& 0xFF48 = s.status &&& 0xFF48) ∧
  (∀ s t : State, 4 ≤ s.flen.toNat → exec .dec s = .next t → t.err ≠ 2)

/-- R95. A failed `DEC` reports no parsed frame: `ADDR`, `FC`, `PLEN` and everything else but the outcome fields keep their
values, and `CRC` too unless the error is `ChecksumError`. -/
def Obligations.FailedDecReportsNoFrame : Prop :=
  ∀ s t : State, exec .dec s = .next t → t.err ≠ 0 →
    t = { s with status := t.status, crc := t.crc } ∧ (t.err ≠ 3 → t.crc = s.crc) ∧
    t.accErr = s.accErr ∧ t.status &&& 0xFF48 = s.status &&& 0xFF48

/-- The frame of `DEC`: it stores nothing, so every cell of `BUF` reads as before, and `FLEN` and the rest of `STATUS` are
unchanged (R44, R93). -/
def Obligations.DecFrame : Prop :=
  ∀ s t : State, exec .dec s = .next t →
    (∀ k, Memory.get t.buf k = Memory.get s.buf k) ∧ t.flen = s.flen ∧ t.pending = s.pending ∧ t.answers = s.answers ∧
    t.accErr = s.accErr ∧ t.status &&& 0xFF48 = s.status &&& 0xFF48

/-! ## Errors and `STATUS` -/

/-- The codes of `STATUS.ERR`, each exactly when its cause holds (R141). -/
def Obligations.ErrorCodesHaveTheirCauses : Prop :=
  (∀ s t : State, exec .enc s = .next t →
      (t.err = 0 ∨ t.err = 1) ∧ (t.err = 1 ↔ 247 < s.addr.toNat ∨ 252 < s.plen.toNat)) ∧
  (∀ s t : State, exec .dec s = .next t →
      (t.err = 0 ∨ t.err = 2 ∨ t.err = 3 ∨ t.err = 4) ∧ (t.err = 2 ↔ s.flen.toNat < 4) ∧
      (t.err = 4 ↔ 256 < s.flen.toNat) ∧
      (t.err = 3 ↔ 4 ≤ s.flen.toNat ∧ s.flen.toNat ≤ 256 ∧
        ∃ (body : List Byte) (lo hi : Byte), body.length + 2 = s.flen.toNat ∧ holds s.buf 0 (body ++ [lo, hi]) ∧
          crc16 body ≠ hi ++ lo))

/-- R20. `ERR` and `LAST` are written together, by `ENC`, `DEC` and `CLR` (and reset) only; after a codec command `LAST` names it
and `ERR` is 0 or the code of its one error. -/
def Obligations.OutcomeWrittenByCodecCommandsOnly : Prop :=
  ∀ (s t : State) (e : Event) (rest : List Event), s.pending = e :: rest → step s = .next t →
    (e = .write 0x000 0x1000 → t.last = 1 ∧ (t.err = 0 ∨ t.err = 1)) ∧
    (e = .write 0x000 0x2000 → t.last = 2 ∧ (t.err = 0 ∨ t.err = 2 ∨ t.err = 3 ∨ t.err = 4)) ∧
    (e = .write 0x000 0x3000 ∨ e = .reset → t.last = 0 ∧ t.err = 0) ∧
    (e ≠ .write 0x000 0x1000 → e ≠ .write 0x000 0x2000 → e ≠ .write 0x000 0x3000 → e ≠ .reset →
      t.last = s.last ∧ t.err = s.err)

/-- R22. `ACCERR` is set by every refused access and every refused command, which change nothing else, and by nothing else; only
`CLR` and reset clear it. -/
def Obligations.AccErrSetByRefusalsOnly : Prop :=
  ∀ (s : State) (e : Event) (rest : List Event), s.pending = e :: rest →
    (refusedEvent e = true → step s = .next { s with
        pending := rest, status := s.status ||| 0x0080,
        answers := match e with
          | .read _ => 0x0000 :: s.answers
          | .write _ _ => s.answers
          | .reset => s.answers }) ∧
    (∀ t : State, refusedEvent e = false → step s = .next t →
      (e = .write 0x000 0x3000 ∨ e = .reset → t.accErr = false) ∧
      (e ≠ .write 0x000 0x3000 → e ≠ .reset → t.accErr = s.accErr))

/-- `STATUS` is its three fields: in every state that meets the invariant, the word is `ERR`, `LAST` and `ACCERR` in their
places and 0 elsewhere (R19). -/
def Obligations.StatusWordIsItsFields : Prop :=
  ∀ s : State, s.Inv →
    s.status = s.err.setWidth 16 ||| (s.last.setWidth 16 <<< 4) ||| (if s.accErr then 0x0080 else 0x0000)

/-! ## Host transactions -/

/-- R33. What each `Read` returns, and that a legal one changes no state of the block. Of an unwritten buffer cell the rule says
nothing. -/
def Obligations.HostReadReturnsCell : Prop :=
  ∀ (s : State) (a : CellAddr) (rest : List Event), s.pending = .read a :: rest →
    (a = 0x000 → step s = .next { s with pending := rest, answers := 0x0000 :: s.answers }) ∧
    (a = 0x001 → step s = .next { s with pending := rest, answers := s.status :: s.answers }) ∧
    (a = 0x002 → step s = .next { s with pending := rest, answers := s.crc :: s.answers }) ∧
    (a = 0x003 → step s = .next { s with pending := rest, answers := s.addr.setWidth 16 :: s.answers }) ∧
    (a = 0x004 → step s = .next { s with pending := rest, answers := s.fc.setWidth 16 :: s.answers }) ∧
    (a = 0x005 → step s = .next { s with pending := rest, answers := s.plen.setWidth 16 :: s.answers }) ∧
    (a = 0x006 → step s = .next { s with pending := rest, answers := s.flen.setWidth 16 :: s.answers }) ∧
    (0x007 ≤ a.toNat → a.toNat ≤ 0x0FF →
      step s = .next { s with pending := rest, status := s.status ||| 0x0080, answers := 0x0000 :: s.answers }) ∧
    (∀ (k : Nat) (b : Byte), a.toNat = 0x100 + k → Memory.get s.buf k = some b →
      step s = .next { s with pending := rest, answers := b.setWidth 16 :: s.answers })

/-- R34. What each `Write` does: run a command word, store a value that fits in exactly that cell, or be refused. -/
def Obligations.HostWriteStoresCell : Prop :=
  ∀ (s : State) (a : CellAddr) (v : Word) (rest : List Event), s.pending = .write a v :: rest →
    let refused := Host.Outcome.next { s with pending := rest, status := s.status ||| 0x0080 }
    (a = 0x000 → step s = match decode v with
      | .ok i => exec i { s with pending := rest }
      | .error _ => refused) ∧
    (a = 0x001 ∨ a = 0x002 → step s = refused) ∧
    (a = 0x003 → step s = if v ≤ 0x00FF then .next { s with pending := rest, addr := v.setWidth 8 } else refused) ∧
    (a = 0x004 → step s = if v ≤ 0x00FF then .next { s with pending := rest, fc := v.setWidth 8 } else refused) ∧
    (a = 0x005 → step s = if v ≤ 0x01FF then .next { s with pending := rest, plen := v.setWidth 9 } else refused) ∧
    (a = 0x006 → step s = if v ≤ 0x01FF then .next { s with pending := rest, flen := v.setWidth 9 } else refused) ∧
    (0x007 ≤ a.toNat → a.toNat ≤ 0x0FF → step s = refused) ∧
    (∀ k : Nat, a.toNat = 0x100 + k →
      if v ≤ 0x00FF then
        ∃ t : State, step s = .next t ∧ t = { s with pending := rest, buf := t.buf } ∧
          Memory.get t.buf k = some (v.setWidth 8) ∧ ∀ j, j ≠ k → Memory.get t.buf j = Memory.get s.buf j
      else step s = refused)

/-- An accepted write is seen by the next read of the same cell (R34, R40, R42). -/
def Obligations.ReadReturnsLastWrite : Prop :=
  ∀ (s : State) (a : CellAddr) (v : Word) (rest : List Event), s.pending = .write a v :: .read a :: rest →
    a ≠ 0x000 → refusedEvent (.write a v) = false →
      ∃ t : State, run 2 s = .next t ∧ t.answers = v :: s.answers ∧ t.pending = rest ∧ t.status = s.status ∧
        t.crc = s.crc

/-- The written marks: clear after reset, kept by `CLR`, set by an accepted host write and by `ENC` for the cells it stores to
(R24). -/
def Obligations.WrittenMarksFollowWrites : Prop :=
  (∀ (s t : State) (k : Nat), hostReset s = .next t → written t.buf k = false) ∧
  (∀ (s t : State) (k : Nat), exec .clr s = .next t → written t.buf k = written s.buf k) ∧
  (∀ (s : State) (k : Nat) (b : Byte) (rest : List Event), k < 256 →
      s.pending = .write (BitVec.ofNat 9 (0x100 + k)) (b.setWidth 16) :: rest →
        ∃ t : State, step s = .next t ∧ ∀ j, written t.buf j = (j == k || written s.buf j)) ∧
  (∀ s t : State, exec .enc s = .next t → ∀ j, written t.buf j = (decide (j ∈ encStores s) || written s.buf j))

/-! ## Steps and runs -/

/-- Every command completes unless its rule reads an unwritten buffer cell; then it stops, naming a cell that is unwritten
(R24, R169; that the stop is a fault is the model's choice among those R24 gives, log 1). -/
def Obligations.CommandCompletesUnlessUndefinedRead : Prop :=
  ∀ (i : Instr) (s : State),
    (undefinedCommand i s = false → ∃ t : State, exec i s = .next t) ∧
    (undefinedCommand i s = true → ∃ k : Nat, exec i s = .fault (.undefinedRead k) ∧ written s.buf k = false)

/-- Every transaction terminates: a step has a next state unless its event reads an unwritten buffer cell, and is never refused
(R35, R169). With nothing pending nothing changes (the model's choice, log 4). -/
def Obligations.EveryTransactionTerminates : Prop :=
  (∀ s : State, s.pending = [] → step s = .next s) ∧
  (∀ (s : State) (e : Event) (rest : List Event), s.pending = e :: rest →
    (undefinedEvent e s = false → ∃ t : State, step s = .next t) ∧
    (undefinedEvent e s = true → ∃ k : Nat, step s = .fault (.undefinedRead k) ∧ written s.buf k = false))

/-- A step takes exactly one event, and returns one value exactly for a read. For transactions this is R40 and R33; the two lists
are the model's own (logs 3, 5), and that a reset is one of the events, keeps the rest of the list and returns no value is the
model's choice (log 6). -/
def Obligations.OneEventPerStep : Prop :=
  ∀ (s t : State) (e : Event) (rest : List Event), s.pending = e :: rest → step s = .next t →
    t.pending = rest ∧
    (∀ a, e = .read a → ∃ v, t.answers = v :: s.answers) ∧ ((∀ a, e ≠ .read a) → t.answers = s.answers)

/-- The reset state meets the invariant (R21, R25). -/
def Obligations.ResetMeetsInvariant : Prop := State.reset.Inv

/-- Every step keeps the invariant: the buffer's canonical form, the reserved bits of `STATUS` at 0 and a pair (`LAST`, `ERR`)
that occurs (R19, R21). -/
def Obligations.StepKeepsInvariant : Prop :=
  ∀ s t : State, s.Inv → step s = .next t → t.Inv

/-- Who writes `CRC`: the checksum and codec commands, `CLR` and reset, never a host access; and a codec command that computes no
checksum leaves it (R13, R164). -/
def Obligations.CrcWrittenByCommandsOnly : Prop :=
  (∀ (s t : State) (e : Event) (rest : List Event), s.pending = e :: rest → step s = .next t → t.crc ≠ s.crc →
      e = .reset ∨ ∃ i, e = .write 0x000 (encode i) ∧ i ≠ .nop) ∧
  (∀ s t : State, exec .enc s = .next t → t.err = 1 → t.crc = s.crc) ∧
  (∀ s t : State, exec .dec s = .next t → t.err = 2 ∨ t.err = 4 → t.crc = s.crc)

/-- A run whose end has `ACCERR` = 0 and in which nothing cleared it had no refused access and no refused command (R167). -/
def Obligations.CleanEndMeansNothingRefused : Prop :=
  ∀ (n : Nat) (s t : State), run n s = .next t → t.accErr = false →
    (∀ e ∈ s.pending.take n, e ≠ .write 0x000 0x3000 ∧ e ≠ .reset) →
      s.accErr = false ∧ ∀ e ∈ s.pending.take n, refusedEvent e = false

/-- A command sees only the state of the block: what the host has still to issue and what its reads returned neither change nor are
changed (R10, R26). -/
def Obligations.CommandsIgnoreHostSide : Prop :=
  ∀ (i : Instr) (s : State) (p : List Event) (a : List Word),
    (∀ t : State, exec i s = .next t →
      exec i { s with pending := p, answers := a } = .next { t with pending := p, answers := a } ∧
      t.pending = s.pending ∧ t.answers = s.answers) ∧
    (∀ f : Fault, exec i s = .fault f → exec i { s with pending := p, answers := a } = .fault f)

/-- The codec commands read only the cells of R44: `DEC` `BUF[0 .. FLEN)`, `ENC` `BUF[2 .. 2+PLEN)`. -/
def Obligations.CodecReadsOnlyItsCells : Prop :=
  (∀ (s t : State) (m : Memory), (∀ k < s.flen.toNat, Memory.get m k = Memory.get s.buf k) → exec .dec s = .next t →
      exec .dec { s with buf := m } = .next { t with buf := m }) ∧
  (∀ (s t : State) (m : Memory), (∀ k < s.plen.toNat, Memory.get m (2 + k) = Memory.get s.buf (2 + k)) →
      exec .enc s = .next t →
        ∃ u : State, exec .enc { s with buf := m } = .next u ∧ u = { t with buf := u.buf } ∧
          ∀ k ∈ encStores s, Memory.get u.buf k = Memory.get t.buf k)

/-- `ENC` twice in a row gives the same state as once, and so does `DEC` (R83, R93). -/
def Obligations.CodecCommandsIdempotent : Prop :=
  (∀ s t : State, exec .enc s = .next t → exec .enc t = .next t) ∧
  (∀ s t : State, exec .dec s = .next t → exec .dec t = .next t)

/-- `DEC` straight after a successful `ENC` succeeds, writes the values `ADDR`, `FC`, `PLEN` already hold, and leaves `STATUS` =
0x0020 (with `ACCERR` as it was). The spec marks the sentence (42_frame_decode.md R99) as its own inference from R83 and R93. -/
def Obligations.DecAfterEncSucceeds : Prop :=
  ∀ s t : State, exec .enc s = .next t → t.err = 0 →
    t.flen.toNat = t.plen.toNat + 4 ∧
    ∃ u : State, exec .dec t = .next u ∧ u = { t with status := u.status } ∧ u.err = 0 ∧ u.last = 2 ∧
      u.accErr = t.accErr ∧ (s.status &&& 0xFF48 = 0 → s.accErr = false → u.status = 0x0020)

/-! ## The functions `crc16`, `encode`, `decode` -/

/-- The table form of `crc_update`. The spec marks the sentence (40_crc_engine.md R77) as its own inference from R71. -/
def Obligations.CrcUpdateTableForm : Prop :=
  ∀ (c : Word) (b : Byte),
    crcUpdate c b = (c >>> 8) ^^^ crcTable ((c ^^^ b.setWidth 16).extractLsb' 0 8)

/-- For a fixed byte `crc_update` is a bijection of the register, so registers that differ stay different under the same following
bytes. The spec marks the sentence (40_crc_engine.md R78) as its own inference from R71. -/
def Obligations.CrcUpdateIsBijective : Prop :=
  (∀ b : Byte, Function.Bijective (fun c : Word => crcUpdate c b)) ∧
  (∀ (c d : Word) (s : List Byte), c ≠ d → s.foldl crcUpdate c ≠ s.foldl crcUpdate d)

/-- The checksum of a sequence followed by its own checksum bytes, low byte first, is 0; so testing a frame's whole checksum
for 0 is equivalent to the comparison `decode` makes. The spec marks the sentence (40_crc_engine.md R79) as supplied from general
knowledge and following from R71 to R73. -/
def Obligations.CrcResidueIsZero : Prop :=
  (∀ s : List Byte, crc16 (s ++ [(crc16 s).extractLsb' 0 8, (crc16 s).extractLsb' 8 8]) = 0x0000) ∧
  (∀ s : List Byte, 4 ≤ s.length → (crc16 s = 0x0000 ↔ frameDecode s ≠ .error .checksumError))

/-- R81. `EncodingError` has exactly two causes and `encode` has no other failure. -/
def Obligations.EncodingErrorHasTwoCauses : Prop :=
  ∀ (a : Int) (f : Byte) (p : List Byte) (e : ErrorKind),
    frameEncode a f p = .error e ↔ e = .encodingError ∧ (¬ (0 ≤ a ∧ a ≤ 247) ∨ 252 < p.length)

/-- The layout of an encoded frame (R50, R52, R80): its length, and what stands at each byte index. -/
def Obligations.EncodedFrameLayout : Prop :=
  ∀ (a : Nat) (f : Byte) (p frame : List Byte), frameEncode a f p = .ok frame →
    frame.length = p.length + 4 ∧ 4 ≤ frame.length ∧ frame.length ≤ 256 ∧
    frame[0]? = some (BitVec.ofNat 8 a) ∧ frame[1]? = some f ∧ (∀ i < p.length, frame[i + 2]? = p[i]?) ∧
    frame[p.length + 2]? = some ((crc16 (frame.take (p.length + 2))).extractLsb' 0 8) ∧
    frame[p.length + 3]? = some ((crc16 (frame.take (p.length + 2))).extractLsb' 8 8)

/-- R91. The length is tested first: fewer than 4 bytes are always `TruncatedFrameError`, 4 or more never, whatever the bytes. -/
def Obligations.DecodeTestsLengthFirst : Prop :=
  ∀ s : List Byte, frameDecode s = .error .truncatedFrameError ↔ s.length < 4

/-- R86. `decode(encode(a, f, p)) = (a, f, p)` for every address in 0..247, every function code byte and every payload of at most
252 bytes. -/
def Obligations.FrameRoundTrip : Prop :=
  ∀ (a : Nat) (f : Byte) (p : List Byte), a ≤ 247 → p.length ≤ 252 →
    ∃ frame : List Byte, frameEncode a f p = .ok frame ∧ frameDecode frame = .ok ⟨BitVec.ofNat 8 a, f, p⟩

/-- R97. A sequence of the same length that differs from an encoded frame in exactly one byte decodes to `ChecksumError`. -/
def Obligations.SingleByteErrorDetected : Prop :=
  ∀ (a : Int) (f : Byte) (p frame t : List Byte) (i : Nat), frameEncode a f p = .ok frame → t.length = frame.length →
    t[i]? ≠ frame[i]? → (∀ j, j ≠ i → t[j]? = frame[j]?) → frameDecode t = .error .checksumError

/-! ## Streams and pseudo-instructions -/

/-- `CRC.INIT` and then `CRC.BYTE` for each byte of a sequence of any length leaves `CRC` = `crc16`; host reads and writes of
other cells, `NOP` and refused words may come between. The spec marks the sentence (40_crc_engine.md R69) as its own inference from
R72, R75, R76 and R34. -/
def Obligations.StreamComputesChecksum : Prop :=
  (∀ (s : State) (bs : List Byte), s.pending = cmd .crcInit :: bs.map (fun b => cmd (.crcByte b)) →
      run (bs.length + 1) s = .next { s with pending := [], crc := crc16 bs }) ∧
  (∀ (s t : State) (es rest : List Event), s.pending = cmd .crcInit :: (es ++ rest) →
      (∀ e ∈ es, streamEvent e = true) → run (es.length + 1) s = .next t → t.crc = crc16 (streamedBytes es))

/-- The pseudo-instruction `CHECKSUM` realises `checksum`: it runs to its end from every state and its read returns `crc16` of the bytes
(R64). -/
def Obligations.ChecksumProgramReturnsChecksum : Prop :=
  ∀ (s : State) (bs : List Byte), s.pending = checksumProgram bs →
    run (bs.length + 2) s = .next { s with pending := [], crc := crc16 bs, answers := crc16 bs :: s.answers }

/-- The pseudo-instruction `ENCODE` realises `encode`: from every state it runs to its end, its read returns `STATUS`, and the outcome is
that of `encode` (R64). -/
def Obligations.EncodeProgramRealisesEncode : Prop :=
  ∀ (s : State) (a f : Byte) (p : List Byte), s.pending = encodeProgram a f p → p.length ≤ 254 →
    ∃ t : State, run (p.length + 5) s = .next t ∧ t.pending = [] ∧ t.answers = t.status :: s.answers ∧ t.last = 1 ∧
      t.accErr = s.accErr ∧
      match frameEncode a.toNat f p with
      | .ok frame => t.err = 0 ∧ t.flen.toNat = frame.length ∧ holds t.buf 0 frame
      | .error e => t.err = errCode e ∧ t.crc = s.crc ∧ t.flen = s.flen

/-- The pseudo-instruction `DECODE` realises `decode`: from every state it runs to its end, its read returns `STATUS`, and the outcome is
that of `decode` (R64). -/
def Obligations.DecodeProgramRealisesDecode : Prop :=
  ∀ (s : State) (bs : List Byte), s.pending = decodeProgram bs → bs.length ≤ 256 →
    ∃ t : State, run (bs.length + 3) s = .next t ∧ t.pending = [] ∧ t.answers = t.status :: s.answers ∧ t.last = 2 ∧
      t.accErr = s.accErr ∧ holds t.buf 0 bs ∧
      match frameDecode bs with
      | .ok f => t.err = 0 ∧ t.addr = f.address ∧ t.fc = f.functionCode ∧ t.plen.toNat = f.payload.length
      | .error e => t.err = errCode e ∧ t.addr = s.addr ∧ t.fc = s.fc ∧ t.plen = s.plen
end

