-- ==== Sys2Proof/Laws/Flags.lean ====
section
/-! SUPPORT. The fields of `STATUS` after each write of it (spec/10_state.md R19, R20, R22). -/

namespace Sys2Proof.Machine

variable (w : Word) (e : BitVec 3) (l : BitVec 2)

@[simp] theorem errField_withOutcome : errField (withOutcome w e l) = e := by
  ext i hi
  simp only [errField, withOutcome, BitVec.getElem_extractLsb', BitVec.getLsbD_or, BitVec.getLsbD_and, BitVec.getLsbD_not,
    BitVec.getLsbD_setWidth, BitVec.getLsbD_shiftLeft]
  rw [← BitVec.getLsbD_eq_getElem]
  interval_cases i <;> simp

@[simp] theorem lastField_withOutcome : lastField (withOutcome w e l) = l := by
  ext i hi
  simp only [lastField, withOutcome, BitVec.getElem_extractLsb', BitVec.getLsbD_or, BitVec.getLsbD_and, BitVec.getLsbD_not,
    BitVec.getLsbD_setWidth, BitVec.getLsbD_shiftLeft]
  rw [← BitVec.getLsbD_eq_getElem]
  interval_cases i <;> simp

@[simp] theorem accErrBit_withOutcome : accErrBit (withOutcome w e l) = accErrBit w := by
  simp [accErrBit, withOutcome]

@[simp] theorem reserved_withOutcome : withOutcome w e l &&& statusReservedMask = w &&& statusReservedMask := by
  ext i hi
  simp only [withOutcome, statusReservedMask, BitVec.getElem_and, BitVec.getElem_or, BitVec.getElem_not,
    BitVec.getElem_setWidth, BitVec.getElem_shiftLeft]
  interval_cases i <;> simp

@[simp] theorem errField_withAccErr : errField (withAccErr w) = errField w := by
  ext i hi
  simp only [errField, withAccErr, BitVec.getElem_extractLsb', BitVec.getLsbD_or]
  interval_cases i <;> simp

@[simp] theorem lastField_withAccErr : lastField (withAccErr w) = lastField w := by
  ext i hi
  simp only [lastField, withAccErr, BitVec.getElem_extractLsb', BitVec.getLsbD_or]
  interval_cases i <;> simp

@[simp] theorem accErrBit_withAccErr : accErrBit (withAccErr w) = true := by
  simp [accErrBit, withAccErr]

@[simp] theorem reserved_withAccErr : withAccErr w &&& statusReservedMask = w &&& statusReservedMask := by
  ext i hi
  simp only [withAccErr, statusReservedMask, BitVec.getElem_and, BitVec.getElem_or]
  interval_cases i <;> simp

/-- `STATUS` is its three fields and its reserved bits. -/
theorem status_ext (v w : Word) (he : errField v = errField w) (hl : lastField v = lastField w)
    (ha : accErrBit v = accErrBit w) (hr : v &&& statusReservedMask = w &&& statusReservedMask) : v = w := by
  have he' : ∀ j, j < 3 → v.getLsbD j = w.getLsbD j := fun j hj => by
    simpa [errField, hj] using congrArg (fun x => x.getLsbD j) he
  have hl' : ∀ j, j < 2 → v.getLsbD (4 + j) = w.getLsbD (4 + j) := fun j hj => by
    simpa [lastField, hj] using congrArg (fun x => x.getLsbD j) hl
  have hr' : ∀ j, statusReservedMask.getLsbD j = true → v.getLsbD j = w.getLsbD j := fun j hj => by
    have := congrArg (fun x => x.getLsbD j) hr
    simpa only [BitVec.getLsbD_and, hj, Bool.and_true] using this
  ext i hi
  rw [← BitVec.getLsbD_eq_getElem, ← BitVec.getLsbD_eq_getElem]
  interval_cases i <;>
    first
      | exact he' _ (by decide)
      | exact hl' 0 (by decide)
      | exact hl' 1 (by decide)
      | exact ha
      | exact hr' _ (by decide)

/-! The fields of a state after each shared operation that writes `STATUS`. -/

variable (s : State) (k : ErrorKind) (c : CodecCommand)

@[simp] theorem err_refuse : (refuse s).err = s.err := errField_withAccErr _
@[simp] theorem last_refuse : (refuse s).last = s.last := lastField_withAccErr _
@[simp] theorem accErr_refuse : (refuse s).accErr = true := accErrBit_withAccErr _
@[simp] theorem err_raise : (raise k c s).err = errCode k := errField_withOutcome _ _ _
@[simp] theorem last_raise : (raise k c s).last = lastCode c := lastField_withOutcome _ _ _
@[simp] theorem accErr_raise : (raise k c s).accErr = s.accErr := accErrBit_withOutcome _ _ _
@[simp] theorem err_succeed : (succeed c s).err = 0 := errField_withOutcome _ _ _
@[simp] theorem last_succeed : (succeed c s).last = lastCode c := lastField_withOutcome _ _ _
@[simp] theorem accErr_succeed : (succeed c s).accErr = s.accErr := accErrBit_withOutcome _ _ _

/-! No other update touches the fields of `STATUS`. -/

@[simp] theorem err_setCrc (v : Word) : (s.setCrc v).err = s.err := rfl
@[simp] theorem last_setCrc (v : Word) : (s.setCrc v).last = s.last := rfl
@[simp] theorem accErr_setCrc (v : Word) : (s.setCrc v).accErr = s.accErr := rfl
@[simp] theorem err_setAddr (v : Byte) : (s.setAddr v).err = s.err := rfl
@[simp] theorem last_setAddr (v : Byte) : (s.setAddr v).last = s.last := rfl
@[simp] theorem accErr_setAddr (v : Byte) : (s.setAddr v).accErr = s.accErr := rfl
@[simp] theorem err_setFc (v : Byte) : (s.setFc v).err = s.err := rfl
@[simp] theorem last_setFc (v : Byte) : (s.setFc v).last = s.last := rfl
@[simp] theorem accErr_setFc (v : Byte) : (s.setFc v).accErr = s.accErr := rfl
@[simp] theorem err_setPlen (v : Length) : (s.setPlen v).err = s.err := rfl
@[simp] theorem last_setPlen (v : Length) : (s.setPlen v).last = s.last := rfl
@[simp] theorem accErr_setPlen (v : Length) : (s.setPlen v).accErr = s.accErr := rfl
@[simp] theorem err_setFlen (v : Length) : (s.setFlen v).err = s.err := rfl
@[simp] theorem last_setFlen (v : Length) : (s.setFlen v).last = s.last := rfl
@[simp] theorem accErr_setFlen (v : Length) : (s.setFlen v).accErr = s.accErr := rfl
@[simp] theorem err_setPending (v : List Event) : (s.setPending v).err = s.err := rfl
@[simp] theorem last_setPending (v : List Event) : (s.setPending v).last = s.last := rfl
@[simp] theorem accErr_setPending (v : List Event) : (s.setPending v).accErr = s.accErr := rfl
@[simp] theorem err_answer (v : Word) : (s.answer v).err = s.err := rfl
@[simp] theorem last_answer (v : Word) : (s.answer v).last = s.last := rfl
@[simp] theorem accErr_answer (v : Word) : (s.answer v).accErr = s.accErr := rfl
@[simp] theorem err_store (j : Nat) (b : Byte) : (s.store j b).err = s.err := rfl
@[simp] theorem last_store (j : Nat) (b : Byte) : (s.store j b).last = s.last := rfl
@[simp] theorem accErr_store (j : Nat) (b : Byte) : (s.store j b).accErr = s.accErr := rfl

end Sys2Proof.Machine
end

