-- ==== Sys2Proof/Laws/Memory.lean ====
section
/-! SUPPORT. The laws of the frame buffer: reading after writing, the canonical form and what follows from it, and what
`loadByte` and `memRead` can do. -/

namespace Sys2Proof.Machine

theorem get_cons (m : Memory) (j k : Nat) (b : Byte) :
    Memory.get ((j, b) :: m) k = if k = j then some b else Memory.get m k := rfl

/-- Reading after writing, same cell or another. -/
@[simp] theorem get_put (m : Memory) (k j : Nat) (b : Byte) :
    Memory.get (Memory.put m k b) j = if j = k then some b else Memory.get m j := by
  induction m with
  | nil => rfl
  | cons c m ih =>
    obtain ⟨i, c⟩ := c
    simp only [Memory.put]
    split_ifs with h1 h2 <;> simp only [get_cons, ih] <;> split_ifs <;> first | rfl | omega

/-- A read of the cell just written gives the value written. -/
theorem get_put_same (m : Memory) (k : Nat) (b : Byte) : Memory.get (Memory.put m k b) k = some b := by simp

/-- A write leaves every other cell alone. -/
theorem get_put_other (m : Memory) (k j : Nat) (b : Byte) (h : j ≠ k) :
    Memory.get (Memory.put m k b) j = Memory.get m j := by simp [h]

theorem mem_put (m : Memory) (k : Nat) (b : Byte) (c : Host.Cell) (h : c ∈ Memory.put m k b) : c = (k, b) ∨ c ∈ m := by
  induction m with
  | nil => simpa [Memory.put] using h
  | cons d m ih =>
    obtain ⟨i, d⟩ := d
    simp only [Memory.put] at h
    split_ifs at h <;> simp only [List.mem_cons] at h ⊢ <;> tauto

/-- The one operation that changes a buffer keeps its canonical form. -/
theorem put_wf (m : Memory) (k : Nat) (b : Byte) (hk : k < 256) (h : Memory.wf m) : Memory.wf (Memory.put m k b) := by
  refine ⟨?_, fun c hc => ?_⟩
  · replace h := h.1
    induction m with
    | nil => simp [Memory.put]
    | cons d m ih =>
      obtain ⟨i, d⟩ := d
      rw [List.pairwise_cons] at h
      simp only [Memory.put]
      split_ifs with h1 h2
      · refine List.pairwise_cons.2 ⟨fun c hc => ?_, List.pairwise_cons.2 h⟩
        rcases List.mem_cons.1 hc with rfl | hc
        · exact h1
        · exact lt_trans h1 (h.1 c hc)
      · subst h2
        exact List.pairwise_cons.2 h
      · refine List.pairwise_cons.2 ⟨fun c hc => ?_, ih h.2⟩
        rcases mem_put m k b c hc with rfl | hc
        · change i < k
          omega
        · exact h.1 c hc
  · rcases mem_put m k b c hc with rfl | hc
    · exact hk
    · exact h.2 c hc

/-- The buffer of the reset state is in canonical form. -/
theorem reset_wf : Memory.wf State.reset.buf := by decide

theorem get_eq_none_of_lt (m : Memory) (k : Nat) (h : ∀ c ∈ m, k < c.1) : Memory.get m k = none := by
  induction m with
  | nil => rfl
  | cons d m ih =>
    obtain ⟨i, d⟩ := d
    have hi : k < i := h (i, d) (by simp)
    rw [get_cons, if_neg (by omega), ih fun c hc => h c (by simp [hc])]

/-- Canonical buffers that read alike are equal. -/
theorem wf_ext (m m' : Memory) (h : Memory.wf m) (h' : Memory.wf m') (he : ∀ k, Memory.get m k = Memory.get m' k) :
    m = m' := by
  replace h := h.1
  replace h' := h'.1
  induction m generalizing m' with
  | nil =>
    cases m' with
    | nil => rfl
    | cons d m' => simpa [Memory.get] using he d.1
  | cons c m ih =>
    cases m' with
    | nil => simpa [Memory.get] using he c.1
    | cons d m' =>
      obtain ⟨i, c⟩ := c
      obtain ⟨j, d⟩ := d
      rw [List.pairwise_cons] at h h'
      have hj : Memory.get m j = none ∨ i < j := by
        by_cases hlt : i < j
        · exact .inr hlt
        · exact .inl (get_eq_none_of_lt m j fun x hx => lt_of_le_of_lt (by omega) (h.1 x hx))
      have hi : Memory.get m' i = none ∨ j < i := by
        by_cases hlt : j < i
        · exact .inr hlt
        · exact .inl (get_eq_none_of_lt m' i fun x hx => lt_of_le_of_lt (by omega) (h'.1 x hx))
      have e1 := he i
      have e2 := he j
      simp only [get_cons, if_true] at e1 e2
      have hij : i = j := by
        by_contra hne
        rw [if_neg hne] at e1
        rw [if_neg (Ne.symm hne)] at e2
        rcases hj with hj | hj
        · rw [hj] at e2
          simp at e2
        · rcases hi with hi | hi
          · rw [hi] at e1
            simp at e1
          · omega
      subst hij
      simp only [if_true, Option.some.injEq] at e1
      subst e1
      rw [ih m' (fun k => ?_) h.2 h'.2]
      have ek := he k
      simp only [get_cons] at ek
      split_ifs at ek with hk
      · subst hk
        rw [get_eq_none_of_lt m k h.1, get_eq_none_of_lt m' k h'.1]
      · exact ek

/-- A canonical buffer has no cell at or above 256. -/
theorem get_eq_none_of_wf (m : Memory) (h : Memory.wf m) (k : Nat) (hk : 256 ≤ k) : Memory.get m k = none := by
  have h2 := h.2
  clear h
  induction m with
  | nil => rfl
  | cons d m ih =>
    obtain ⟨i, d⟩ := d
    have hi : i < 256 := h2 (i, d) (by simp)
    rw [get_cons, if_neg (by omega), ih fun c hc => h2 c (by simp [hc])]

@[simp] theorem written_iff (m : Memory) (k : Nat) : written m k = true ↔ ∃ b, Memory.get m k = some b := by
  simp [written, Option.isSome_iff_exists]

/-- A load succeeds exactly on a written cell, and gives its value. -/
@[simp] theorem loadByte_ok_iff (m : Memory) (k : Nat) (b : Byte) : loadByte m k = .ok b ↔ Memory.get m k = some b := by
  unfold loadByte
  cases Memory.get m k <;> simp

/-- A load faults exactly on an unwritten cell, and names it. -/
@[simp] theorem loadByte_error_iff (m : Memory) (k : Nat) (f : Fault) :
    loadByte m k = .error f ↔ Memory.get m k = none ∧ f = .undefinedRead k := by
  unfold loadByte
  cases Memory.get m k <;> simp [eq_comm]

theorem memRead_succ (m : Memory) (k n : Nat) :
    memRead m k (n + 1) =
      match loadByte m k with
      | .error f => .error f
      | .ok b =>
        match memRead m (k + 1) n with
        | .error f => .error f
        | .ok bs => .ok (b :: bs) := by
  rw [memRead]
  cases loadByte m k with
  | error f => rfl
  | ok b => cases memRead m (k + 1) n <;> simp [bind, Except.bind, pure, Except.pure]

/-- `MemRead(k, n)` succeeds exactly when every cell is written, with their values in order. -/
theorem memRead_ok_iff (m : Memory) (k n : Nat) (bs : List Byte) :
    memRead m k n = .ok bs ↔ bs.length = n ∧ ∀ i < n, Memory.get m (k + i) = bs[i]? := by
  induction n generalizing k bs with
  | zero => cases bs <;> simp [memRead]
  | succ n ih =>
    rw [memRead_succ]
    constructor
    · intro h
      split at h
      · simp at h
      · rename_i b hb
        split at h
        · simp at h
        · rename_i bs' hbs
          obtain rfl : b :: bs' = bs := by simpa using h
          obtain ⟨hl, hg⟩ := (ih (k + 1) bs').1 hbs
          refine ⟨by simp [hl], fun i hi => ?_⟩
          cases i with
          | zero => simpa using hb
          | succ i => simpa [Nat.add_assoc, Nat.add_comm 1] using hg i (by omega)
    · rintro ⟨hl, hg⟩
      cases bs with
      | nil => simp at hl
      | cons b bs =>
        have hb : loadByte m k = .ok b := by simpa using hg 0 (by omega)
        have hr : memRead m (k + 1) n = .ok bs := by
          refine (ih (k + 1) bs).2 ⟨by simpa using hl, fun i hi => ?_⟩
          simpa [Nat.add_assoc, Nat.add_comm 1] using hg (i + 1) (by omega)
        rw [hb, hr]

/-- `MemRead(k, n)` faults exactly at the lowest unwritten cell of its range. -/
theorem memRead_error_iff (m : Memory) (k n : Nat) (f : Fault) :
    memRead m k n = .error f ↔
      ∃ i < n, Memory.get m (k + i) = none ∧ f = .undefinedRead (k + i) ∧ ∀ j < i, Memory.get m (k + j) ≠ none := by
  induction n generalizing k with
  | zero => simp [memRead]
  | succ n ih =>
    rw [memRead_succ]
    cases hb : Memory.get m k with
    | none =>
      have : loadByte m k = .error (.undefinedRead k) := by simpa using hb
      rw [this]
      constructor
      · intro h
        exact ⟨0, by omega, by simpa using hb, by simpa [eq_comm] using h, by simp⟩
      · rintro ⟨i, -, -, hf, hj⟩
        cases i with
        | zero => simp [hf]
        | succ i => exact absurd (by simpa using hb) (hj 0 (by omega))
    | some b =>
      have : loadByte m k = .ok b := by simpa using hb
      rw [this]
      have e : (match memRead m (k + 1) n with
          | .error f => Except.error f
          | .ok bs => .ok (b :: bs)) = .error f ↔ memRead m (k + 1) n = .error f := by
        cases memRead m (k + 1) n <;> simp
      refine e.trans ((ih (k + 1)).trans ⟨?_, ?_⟩)
      · rintro ⟨i, hi, hn, hf, hj⟩
        refine ⟨i + 1, by omega, by simpa [Nat.add_assoc, Nat.add_comm 1] using hn,
          by simpa [Nat.add_assoc, Nat.add_comm 1] using hf, fun j hjl => ?_⟩
        cases j with
        | zero => simp [hb]
        | succ j => simpa [Nat.add_assoc, Nat.add_comm 1] using hj j (by omega)
      · rintro ⟨i, hi, hn, hf, hj⟩
        cases i with
        | zero => simp [hb] at hn
        | succ i =>
          refine ⟨i, by omega, by simpa [Nat.add_assoc, Nat.add_comm 1] using hn,
            by simpa [Nat.add_assoc, Nat.add_comm 1] using hf, fun j hjl => ?_⟩
          simpa [Nat.add_assoc, Nat.add_comm 1] using hj (j + 1) (by omega)

/-- Writing the same value to a cell again changes nothing more. -/
theorem put_put_same (m : Memory) (k : Nat) (b c : Byte) : Memory.put (Memory.put m k b) k c = Memory.put m k c := by
  induction m with
  | nil => simp [Memory.put]
  | cons d m ih =>
    obtain ⟨i, d⟩ := d
    simp only [Memory.put]
    split_ifs with h1 h2 <;> simp only [Memory.put]
    · simp
    · simp
    · rw [if_neg h1, if_neg h2, ih]

/-- A range of cells that agree gives the same reading. -/
theorem memRead_congr (m m' : Memory) (k n : Nat) (h : ∀ i < n, Memory.get m (k + i) = Memory.get m' (k + i)) :
    memRead m k n = memRead m' k n := by
  induction n generalizing k with
  | zero => rfl
  | succ n ih =>
    have h0 := h 0 (by omega)
    simp only [Nat.add_zero] at h0
    rw [memRead_succ, memRead_succ,
      ih (k + 1) (fun i hi => by simpa [Nat.add_assoc, Nat.add_comm 1] using h (i + 1) (by omega))]
    simp only [loadByte, h0]

end Sys2Proof.Machine
end

