-- ==== Sys2Proof/Laws/State.lean ====
section
/-! SUPPORT. One lemma per field per update of the state, so that no later proof unfolds a record update. -/

namespace Sys2Proof.Machine

variable (s : State)

/-! `setStatus` -/
@[simp] theorem setStatus_status (v : Word) : (s.setStatus v).status = v := rfl
@[simp] theorem setStatus_crc (v : Word) : (s.setStatus v).crc = s.crc := rfl
@[simp] theorem setStatus_addr (v : Word) : (s.setStatus v).addr = s.addr := rfl
@[simp] theorem setStatus_fc (v : Word) : (s.setStatus v).fc = s.fc := rfl
@[simp] theorem setStatus_plen (v : Word) : (s.setStatus v).plen = s.plen := rfl
@[simp] theorem setStatus_flen (v : Word) : (s.setStatus v).flen = s.flen := rfl
@[simp] theorem setStatus_buf (v : Word) : (s.setStatus v).buf = s.buf := rfl
@[simp] theorem setStatus_pending (v : Word) : (s.setStatus v).pending = s.pending := rfl
@[simp] theorem setStatus_answers (v : Word) : (s.setStatus v).answers = s.answers := rfl

/-! `setCrc` -/
@[simp] theorem setCrc_status (v : Word) : (s.setCrc v).status = s.status := rfl
@[simp] theorem setCrc_crc (v : Word) : (s.setCrc v).crc = v := rfl
@[simp] theorem setCrc_addr (v : Word) : (s.setCrc v).addr = s.addr := rfl
@[simp] theorem setCrc_fc (v : Word) : (s.setCrc v).fc = s.fc := rfl
@[simp] theorem setCrc_plen (v : Word) : (s.setCrc v).plen = s.plen := rfl
@[simp] theorem setCrc_flen (v : Word) : (s.setCrc v).flen = s.flen := rfl
@[simp] theorem setCrc_buf (v : Word) : (s.setCrc v).buf = s.buf := rfl
@[simp] theorem setCrc_pending (v : Word) : (s.setCrc v).pending = s.pending := rfl
@[simp] theorem setCrc_answers (v : Word) : (s.setCrc v).answers = s.answers := rfl

/-! `setAddr` -/
@[simp] theorem setAddr_status (v : Byte) : (s.setAddr v).status = s.status := rfl
@[simp] theorem setAddr_crc (v : Byte) : (s.setAddr v).crc = s.crc := rfl
@[simp] theorem setAddr_addr (v : Byte) : (s.setAddr v).addr = v := rfl
@[simp] theorem setAddr_fc (v : Byte) : (s.setAddr v).fc = s.fc := rfl
@[simp] theorem setAddr_plen (v : Byte) : (s.setAddr v).plen = s.plen := rfl
@[simp] theorem setAddr_flen (v : Byte) : (s.setAddr v).flen = s.flen := rfl
@[simp] theorem setAddr_buf (v : Byte) : (s.setAddr v).buf = s.buf := rfl
@[simp] theorem setAddr_pending (v : Byte) : (s.setAddr v).pending = s.pending := rfl
@[simp] theorem setAddr_answers (v : Byte) : (s.setAddr v).answers = s.answers := rfl

/-! `setFc` -/
@[simp] theorem setFc_status (v : Byte) : (s.setFc v).status = s.status := rfl
@[simp] theorem setFc_crc (v : Byte) : (s.setFc v).crc = s.crc := rfl
@[simp] theorem setFc_addr (v : Byte) : (s.setFc v).addr = s.addr := rfl
@[simp] theorem setFc_fc (v : Byte) : (s.setFc v).fc = v := rfl
@[simp] theorem setFc_plen (v : Byte) : (s.setFc v).plen = s.plen := rfl
@[simp] theorem setFc_flen (v : Byte) : (s.setFc v).flen = s.flen := rfl
@[simp] theorem setFc_buf (v : Byte) : (s.setFc v).buf = s.buf := rfl
@[simp] theorem setFc_pending (v : Byte) : (s.setFc v).pending = s.pending := rfl
@[simp] theorem setFc_answers (v : Byte) : (s.setFc v).answers = s.answers := rfl

/-! `setPlen` -/
@[simp] theorem setPlen_status (v : Length) : (s.setPlen v).status = s.status := rfl
@[simp] theorem setPlen_crc (v : Length) : (s.setPlen v).crc = s.crc := rfl
@[simp] theorem setPlen_addr (v : Length) : (s.setPlen v).addr = s.addr := rfl
@[simp] theorem setPlen_fc (v : Length) : (s.setPlen v).fc = s.fc := rfl
@[simp] theorem setPlen_plen (v : Length) : (s.setPlen v).plen = v := rfl
@[simp] theorem setPlen_flen (v : Length) : (s.setPlen v).flen = s.flen := rfl
@[simp] theorem setPlen_buf (v : Length) : (s.setPlen v).buf = s.buf := rfl
@[simp] theorem setPlen_pending (v : Length) : (s.setPlen v).pending = s.pending := rfl
@[simp] theorem setPlen_answers (v : Length) : (s.setPlen v).answers = s.answers := rfl

/-! `setFlen` -/
@[simp] theorem setFlen_status (v : Length) : (s.setFlen v).status = s.status := rfl
@[simp] theorem setFlen_crc (v : Length) : (s.setFlen v).crc = s.crc := rfl
@[simp] theorem setFlen_addr (v : Length) : (s.setFlen v).addr = s.addr := rfl
@[simp] theorem setFlen_fc (v : Length) : (s.setFlen v).fc = s.fc := rfl
@[simp] theorem setFlen_plen (v : Length) : (s.setFlen v).plen = s.plen := rfl
@[simp] theorem setFlen_flen (v : Length) : (s.setFlen v).flen = v := rfl
@[simp] theorem setFlen_buf (v : Length) : (s.setFlen v).buf = s.buf := rfl
@[simp] theorem setFlen_pending (v : Length) : (s.setFlen v).pending = s.pending := rfl
@[simp] theorem setFlen_answers (v : Length) : (s.setFlen v).answers = s.answers := rfl

/-! `setPending` -/
@[simp] theorem setPending_status (v : List Event) : (s.setPending v).status = s.status := rfl
@[simp] theorem setPending_crc (v : List Event) : (s.setPending v).crc = s.crc := rfl
@[simp] theorem setPending_addr (v : List Event) : (s.setPending v).addr = s.addr := rfl
@[simp] theorem setPending_fc (v : List Event) : (s.setPending v).fc = s.fc := rfl
@[simp] theorem setPending_plen (v : List Event) : (s.setPending v).plen = s.plen := rfl
@[simp] theorem setPending_flen (v : List Event) : (s.setPending v).flen = s.flen := rfl
@[simp] theorem setPending_buf (v : List Event) : (s.setPending v).buf = s.buf := rfl
@[simp] theorem setPending_pending (v : List Event) : (s.setPending v).pending = v := rfl
@[simp] theorem setPending_answers (v : List Event) : (s.setPending v).answers = s.answers := rfl

/-! `answer` -/
@[simp] theorem answer_status (v : Word) : (s.answer v).status = s.status := rfl
@[simp] theorem answer_crc (v : Word) : (s.answer v).crc = s.crc := rfl
@[simp] theorem answer_addr (v : Word) : (s.answer v).addr = s.addr := rfl
@[simp] theorem answer_fc (v : Word) : (s.answer v).fc = s.fc := rfl
@[simp] theorem answer_plen (v : Word) : (s.answer v).plen = s.plen := rfl
@[simp] theorem answer_flen (v : Word) : (s.answer v).flen = s.flen := rfl
@[simp] theorem answer_buf (v : Word) : (s.answer v).buf = s.buf := rfl
@[simp] theorem answer_pending (v : Word) : (s.answer v).pending = s.pending := rfl
@[simp] theorem answer_answers (v : Word) : (s.answer v).answers = v :: s.answers := rfl

/-! `store` -/
@[simp] theorem store_status (k : Nat) (b : Byte) : (s.store k b).status = s.status := rfl
@[simp] theorem store_crc (k : Nat) (b : Byte) : (s.store k b).crc = s.crc := rfl
@[simp] theorem store_addr (k : Nat) (b : Byte) : (s.store k b).addr = s.addr := rfl
@[simp] theorem store_fc (k : Nat) (b : Byte) : (s.store k b).fc = s.fc := rfl
@[simp] theorem store_plen (k : Nat) (b : Byte) : (s.store k b).plen = s.plen := rfl
@[simp] theorem store_flen (k : Nat) (b : Byte) : (s.store k b).flen = s.flen := rfl
@[simp] theorem store_buf (k : Nat) (b : Byte) : (s.store k b).buf = Memory.put s.buf k b := rfl
@[simp] theorem store_pending (k : Nat) (b : Byte) : (s.store k b).pending = s.pending := rfl
@[simp] theorem store_answers (k : Nat) (b : Byte) : (s.store k b).answers = s.answers := rfl

/-! `clearRegisters` -/
@[simp] theorem clearRegisters_status : s.clearRegisters.status = 0 := rfl
@[simp] theorem clearRegisters_crc : s.clearRegisters.crc = 0xFFFF := rfl
@[simp] theorem clearRegisters_addr : s.clearRegisters.addr = 0 := rfl
@[simp] theorem clearRegisters_fc : s.clearRegisters.fc = 0 := rfl
@[simp] theorem clearRegisters_plen : s.clearRegisters.plen = 0 := rfl
@[simp] theorem clearRegisters_flen : s.clearRegisters.flen = 0 := rfl
@[simp] theorem clearRegisters_buf : s.clearRegisters.buf = s.buf := rfl
@[simp] theorem clearRegisters_pending : s.clearRegisters.pending = s.pending := rfl
@[simp] theorem clearRegisters_answers : s.clearRegisters.answers = s.answers := rfl

/-! `refuse` -/
@[simp] theorem refuse_status : (refuse s).status = withAccErr s.status := rfl
@[simp] theorem refuse_crc : (refuse s).crc = s.crc := rfl
@[simp] theorem refuse_addr : (refuse s).addr = s.addr := rfl
@[simp] theorem refuse_fc : (refuse s).fc = s.fc := rfl
@[simp] theorem refuse_plen : (refuse s).plen = s.plen := rfl
@[simp] theorem refuse_flen : (refuse s).flen = s.flen := rfl
@[simp] theorem refuse_buf : (refuse s).buf = s.buf := rfl
@[simp] theorem refuse_pending : (refuse s).pending = s.pending := rfl
@[simp] theorem refuse_answers : (refuse s).answers = s.answers := rfl

/-! `raise` -/
@[simp] theorem raise_status (e : ErrorKind) (c : CodecCommand) : (raise e c s).status = withOutcome s.status (errCode e) (lastCode c) := rfl
@[simp] theorem raise_crc (e : ErrorKind) (c : CodecCommand) : (raise e c s).crc = s.crc := rfl
@[simp] theorem raise_addr (e : ErrorKind) (c : CodecCommand) : (raise e c s).addr = s.addr := rfl
@[simp] theorem raise_fc (e : ErrorKind) (c : CodecCommand) : (raise e c s).fc = s.fc := rfl
@[simp] theorem raise_plen (e : ErrorKind) (c : CodecCommand) : (raise e c s).plen = s.plen := rfl
@[simp] theorem raise_flen (e : ErrorKind) (c : CodecCommand) : (raise e c s).flen = s.flen := rfl
@[simp] theorem raise_buf (e : ErrorKind) (c : CodecCommand) : (raise e c s).buf = s.buf := rfl
@[simp] theorem raise_pending (e : ErrorKind) (c : CodecCommand) : (raise e c s).pending = s.pending := rfl
@[simp] theorem raise_answers (e : ErrorKind) (c : CodecCommand) : (raise e c s).answers = s.answers := rfl

/-! `succeed` -/
@[simp] theorem succeed_status (c : CodecCommand) : (succeed c s).status = withOutcome s.status errNone (lastCode c) := rfl
@[simp] theorem succeed_crc (c : CodecCommand) : (succeed c s).crc = s.crc := rfl
@[simp] theorem succeed_addr (c : CodecCommand) : (succeed c s).addr = s.addr := rfl
@[simp] theorem succeed_fc (c : CodecCommand) : (succeed c s).fc = s.fc := rfl
@[simp] theorem succeed_plen (c : CodecCommand) : (succeed c s).plen = s.plen := rfl
@[simp] theorem succeed_flen (c : CodecCommand) : (succeed c s).flen = s.flen := rfl
@[simp] theorem succeed_buf (c : CodecCommand) : (succeed c s).buf = s.buf := rfl
@[simp] theorem succeed_pending (c : CodecCommand) : (succeed c s).pending = s.pending := rfl
@[simp] theorem succeed_answers (c : CodecCommand) : (succeed c s).answers = s.answers := rfl

/-- A state is its fields. -/
theorem state_ext {s t : State} (h1 : s.status = t.status) (h2 : s.crc = t.crc) (h3 : s.addr = t.addr) (h4 : s.fc = t.fc)
    (h5 : s.plen = t.plen) (h6 : s.flen = t.flen) (h7 : s.buf = t.buf) (h8 : s.pending = t.pending)
    (h9 : s.answers = t.answers) : s = t := by
  cases s; cases t; simp_all

end Sys2Proof.Machine
end

