-- ==== Sys2Proof/Laws/Ops.lean ====
section
/-! SUPPORT. One lemma for each shared operation that says once everything it can do. -/

namespace Sys2Proof.Machine

@[simp] theorem outcome_next_iff (e : Except Fault State) (t : State) : outcome e = .next t ↔ e = .ok t := by
  cases e <;> simp [outcome]

@[simp] theorem outcome_fault_iff (e : Except Fault State) (f : Fault) : outcome e = .fault f ↔ e = .error f := by
  cases e <;> simp [outcome]

@[simp] theorem outcome_ne_refused (e : Except Fault State) (r : Refusal) : outcome e ≠ .refused r := by
  cases e <;> simp [outcome]

@[simp] theorem fitByte_eq_some_iff (v : Word) (b : Byte) : fitByte v = some b ↔ v = zextByte b := by
  simp only [fitByte, zextByte, BitVec.toNat_eq, BitVec.toNat_setWidth]
  have hb := b.isLt
  have hv := v.isLt
  split_ifs with h
  · simp only [Option.some.injEq, BitVec.toNat_eq, BitVec.toNat_setWidth]
    omega
  · simp only [false_iff]
    omega

@[simp] theorem fitByte_eq_none_iff (v : Word) : fitByte v = none ↔ 0xFF < v.toNat := by
  simp only [fitByte]
  split_ifs with h
  · simp only [false_iff]
    omega
  · simp only [true_iff]
    omega

@[simp] theorem fitLength_eq_some_iff (v : Word) (l : Length) : fitLength v = some l ↔ v = zextLength l := by
  simp only [fitLength, zextLength, BitVec.toNat_eq, BitVec.toNat_setWidth]
  have hb := l.isLt
  have hv := v.isLt
  split_ifs with h
  · simp only [Option.some.injEq, BitVec.toNat_eq, BitVec.toNat_setWidth]
    omega
  · simp only [false_iff]
    omega

@[simp] theorem fitLength_eq_none_iff (v : Word) : fitLength v = none ↔ 0x1FF < v.toNat := by
  simp only [fitLength]
  split_ifs with h
  · simp only [false_iff]
    omega
  · simp only [true_iff]
    omega

@[simp] theorem fitByte_zextByte (b : Byte) : fitByte (zextByte b) = some b := by simp

@[simp] theorem fitLength_zextLength (l : Length) : fitLength (zextLength l) = some l := by simp

theorem writeByte_fits (b : Byte) (s : State) (put : Byte → State) : writeByte (zextByte b) s put = put b := by
  simp [writeByte]

theorem writeByte_refused (v : Word) (s : State) (put : Byte → State) (h : 0xFF < v.toNat) :
    writeByte v s put = refuse s := by
  simp [writeByte, (fitByte_eq_none_iff v).2 h]

theorem writeLength_fits (l : Length) (s : State) (put : Length → State) : writeLength (zextLength l) s put = put l := by
  simp [writeLength]

theorem writeLength_refused (v : Word) (s : State) (put : Length → State) (h : 0x1FF < v.toNat) :
    writeLength v s put = refuse s := by
  simp [writeLength, (fitLength_eq_none_iff v).2 h]

/-- A write to a byte cell stores a value that fits, or is refused. -/
theorem writeByte_cases (v : Word) (s : State) (put : Byte → State) :
    (∃ b, v = zextByte b ∧ writeByte v s put = put b) ∨ (0xFF < v.toNat ∧ writeByte v s put = refuse s) := by
  cases h : fitByte v with
  | none => exact .inr ⟨(fitByte_eq_none_iff v).1 h, by simp [writeByte, h]⟩
  | some b => exact .inl ⟨b, (fitByte_eq_some_iff v b).1 h, by simp [writeByte, h]⟩

/-- A write to a length cell stores a value that fits, or is refused. -/
theorem writeLength_cases (v : Word) (s : State) (put : Length → State) :
    (∃ l, v = zextLength l ∧ writeLength v s put = put l) ∨ (0x1FF < v.toNat ∧ writeLength v s put = refuse s) := by
  cases h : fitLength v with
  | none => exact .inr ⟨(fitLength_eq_none_iff v).1 h, by simp [writeLength, h]⟩
  | some l => exact .inl ⟨l, (fitLength_eq_some_iff v l).1 h, by simp [writeLength, h]⟩

/-- The address map of R30, cell by cell. -/
theorem cellOf_cases (a : CellAddr) :
    (a = 0x000 ∧ cellOf a = .cmd) ∨ (a = 0x001 ∧ cellOf a = .status) ∨ (a = 0x002 ∧ cellOf a = .crc) ∨
    (a = 0x003 ∧ cellOf a = .addr) ∨ (a = 0x004 ∧ cellOf a = .fc) ∨ (a = 0x005 ∧ cellOf a = .plen) ∨
    (a = 0x006 ∧ cellOf a = .flen) ∨ (0x007 ≤ a.toNat ∧ a.toNat ≤ 0x0FF ∧ cellOf a = .reserved) ∨
    (∃ k < 256, a.toNat = 0x100 + k ∧ cellOf a = .buf k) := by
  have ha := a.isLt
  simp only [BitVec.toNat_eq]
  unfold cellOf
  split <;> simp_all
  rename_i n h0 h1 h2 h3 h4 h5 h6
  by_cases hn : a.toNat < 256
  · simp only [Config.bufBase, hn]
    simp
    omega
  · simp only [Config.bufBase, hn]
    simp
    omega

/-- A length below 512 is held as it is (R16, R17). -/
theorem toNat_ofNat_length (n : Nat) (h : n < 512) : (BitVec.ofNat 9 n : Length).toNat = n := by
  simp
  omega

/-- A byte, zero-extended, has nothing above bit 7. -/
theorem lowByte_zextByte (b : Byte) : lowByte (zextByte b) = b := by
  apply BitVec.eq_of_getLsbD_eq
  intro i h
  rw [lowByte, zextByte, BitVec.getLsbD_extractLsb', BitVec.getLsbD_setWidth]
  simp [h]
  omega

/-- Assembling the two bytes of a word gives the word (R55). -/
theorem joinBytes_split (w : Word) : joinBytes (highByte w) (lowByte w) = w := by
  simp only [joinBytes, highByte, lowByte]
  ext i hi
  simp only [BitVec.getElem_append, BitVec.getElem_extractLsb']
  split_ifs with h
  · rw [BitVec.getLsbD_eq_getElem (by omega)]
    simp
  · rw [BitVec.getLsbD_eq_getElem (by omega)]
    congr 1
    omega

/-- The bits of an assembled word (R55). -/
theorem getLsbD_joinBytes (hi lo : Byte) (i : Nat) :
    (joinBytes hi lo).getLsbD i = if i < 8 then lo.getLsbD i else hi.getLsbD (i - 8) := BitVec.getLsbD_append

theorem lowByte_joinBytes (hi lo : Byte) : lowByte (joinBytes hi lo) = lo := by
  apply BitVec.eq_of_getLsbD_eq
  intro i h
  rw [lowByte, BitVec.getLsbD_extractLsb', getLsbD_joinBytes]
  simp [h]

theorem highByte_joinBytes (hi lo : Byte) : highByte (joinBytes hi lo) = hi := by
  apply BitVec.eq_of_getLsbD_eq
  intro i h
  rw [highByte, BitVec.getLsbD_extractLsb', getLsbD_joinBytes]
  simp [h]

end Sys2Proof.Machine
end

