-- ==== Sys2Proof/Laws/Checksum.lean ====
section
/-! SUPPORT. Laws of the checksum loop (spec/40_crc_engine.md R71, R72, R78). -/

namespace Sys2Proof.Machine

@[simp] theorem crc16_nil : crc16 [] = 0xFFFF := rfl

/-- The fold over a longer sequence goes on from the checksum of its front (R72). -/
theorem crc16_append (s t : List Byte) : crc16 (s ++ t) = t.foldl crcUpdate (crc16 s) := List.foldl_append ..

/-- The loop's turn as one expression. -/
theorem crcShift_eq (r : Word) : crcShift r = (r >>> 1) ^^^ (if r.getLsbD 0 = true then Config.crcPoly else 0) := by
  unfold crcShift
  by_cases h : r.getLsbD 0 = true
  · rw [if_pos h, if_pos h]
  · rw [if_neg h, if_neg h]
    exact BitVec.xor_zero.symm

/-- One turn of the loop is linear over xor (R77, R78). -/
theorem crcShift_xor (a b : Word) : crcShift (a ^^^ b) = crcShift a ^^^ crcShift b := by
  have key : ∀ (x y p : Word) (u v : Bool),
      (x ^^^ y) ^^^ (if (u ^^ v) = true then p else 0) =
        (x ^^^ (if u = true then p else 0)) ^^^ (y ^^^ (if v = true then p else 0)) := by
    intro x y p u v
    ext i hi
    cases u <;> cases v <;> simp <;> cases x[i] <;> cases y[i] <;> cases p[i] <;> rfl
  simp only [crcShift_eq, BitVec.getLsbD_xor, BitVec.ushiftRight_xor_distrib]
  exact key ..

/-- After one turn, bit 15 is the bit that was tested (R78). -/
theorem crcShift_msb (r : Word) : (crcShift r).getLsbD 15 = r.getLsbD 0 := by
  rw [crcShift_eq]
  cases r.getLsbD 0 <;> simp

/-- One turn of the loop is a shift when the tested bit is 0. -/
theorem crcShift_of_bit_zero (r : Word) (h : r.getLsbD 0 = false) : crcShift r = r >>> 1 := by
  rw [crcShift_eq, h]
  simp

/-- `n` turns of the loop are linear over xor. -/
theorem crcShifts_xor (n : Nat) (a b : Word) : crcShifts n (a ^^^ b) = crcShifts n a ^^^ crcShifts n b := by
  induction n generalizing a b with
  | zero => rfl
  | succ n ih => simp only [crcShifts, crcShift_xor, ih]

/-- A turn of the loop loses nothing: the tested bit stands in bit 15, the others one place lower (R78). -/
theorem crcShift_injective (a b : Word) (h : crcShift a = crcShift b) : a = b := by
  have h0 : a.getLsbD 0 = b.getLsbD 0 := by rw [← crcShift_msb, h, crcShift_msb]
  have hs : a >>> 1 = b >>> 1 := by
    rw [crcShift_eq, crcShift_eq, h0] at h
    exact (BitVec.xor_left_inj _).1 h
  apply BitVec.eq_of_getLsbD_eq
  intro i hi
  cases i with
  | zero => exact h0
  | succ i => simpa [Nat.add_comm] using congrArg (fun x => x.getLsbD i) hs

end Sys2Proof.Machine
end

