-- ==== Sys2Proof/Laws/Step.lean ====
section
/-! SUPPORT. What one step takes, what a run is, and the pseudocode of the codec commands once its reads have succeeded. -/

namespace Sys2Proof.Machine

theorem step_idle (s : State) (h : s.pending = []) : step s = .next s := by simp [step, h]

theorem step_event (s : State) (e : Event) (rest : List Event) (h : s.pending = e :: rest) :
    step s = serve e (s.setPending rest) := by simp [step, h]

@[simp] theorem run_zero (s : State) : run 0 s = .next s := rfl

theorem run_succ (n : Nat) (s : State) :
    run (n + 1) s =
      match step s with
      | .next t    => run n t
      | .fault f   => .fault f
      | .refused r => .refused r := rfl

theorem core_run_of_next (M : Host.Core) (n : Nat) (s t : M.State) (h : M.step s = .next t) :
    M.run (n + 1) s = M.run n t := by simp [Host.Core.run, h]

theorem core_run_of_fault (M : Host.Core) (n : Nat) (s : M.State) (f : M.Fault) (h : M.step s = .fault f) :
    M.run (n + 1) s = .fault f := by simp [Host.Core.run, h]

theorem core_run_of_refused (M : Host.Core) (n : Nat) (s : M.State) (r : M.Refusal) (h : M.step s = .refused r) :
    M.run (n + 1) s = .refused r := by simp [Host.Core.run, h]

/-- `run` is the host's `Host.Core.run` of the machine. -/
theorem run_eq_core_run (n : Nat) (s : State) : run n s = Host.Core.run Sys2Proof.core n s := by
  induction n generalizing s with
  | zero => rfl
  | succ n ih =>
    rw [run_succ]
    cases h : step s with
    | next t => exact (ih t).trans (core_run_of_next Sys2Proof.core n s t h).symm
    | fault f => exact (core_run_of_fault Sys2Proof.core n s f h).symm
    | refused r => exact (core_run_of_refused Sys2Proof.core n s r h).symm

theorem run_succ_of_next (n : Nat) (s t : State) (h : step s = .next t) : run (n + 1) s = run n t := by
  rw [run_succ, h]

/-- The first step of a run that ends has a next state, from which the rest goes on. -/
theorem run_succ_next (n : Nat) (s u : State) (h : run (n + 1) s = .next u) :
    ∃ t, step s = .next t ∧ run n t = .next u := by
  rw [run_succ] at h
  split at h
  · exact ⟨_, ‹_›, h⟩
  · cases h
  · cases h

/-- A run of `m + n` steps is a run of `n` after a run of `m`. -/
theorem run_add (m n : Nat) (s t : State) (h : run m s = .next t) : run (m + n) s = run n t := by
  induction m generalizing s with
  | zero =>
    simp only [run_zero, Host.Outcome.next.injEq] at h
    rw [Nat.zero_add, h]
  | succ m ih =>
    obtain ⟨u, hu, h⟩ := run_succ_next m s t h
    rw [Nat.add_right_comm, run_succ_of_next _ _ _ hu, ih u h]

/-- `encodingFails` is the guard of R83. -/
theorem encodingFails_iff (s : State) : encodingFails s = true ↔ 247 < s.addr.toNat ∨ 252 < s.plen.toNat := by
  simp [encodingFails]

/-- The host address of `BUF[k]` (R30). -/
theorem cellOf_bufAddr (k : Nat) (h : k < 256) : cellOf (bufAddr k) = .buf k := by
  have hn : (bufAddr k).toNat = 256 + k := by
    simp [bufAddr, Config.bufBase]
    omega
  unfold cellOf
  rw [hn]
  split
  iterate 7 omega
  rw [if_neg (by simp [Config.bufBase]), Nat.add_sub_cancel_left]

end Sys2Proof.Machine
end

