-- ==== Sys2Proof/Laws/Codec.lean ====
section
/-! SUPPORT. Everything `ENC` and `DEC` can do, said once (spec/41_frame_encode.md R83, spec/42_frame_decode.md R93), and the two
functions on byte sequences in the same terms. -/

namespace Sys2Proof.Machine

/-- The state `ENC` leaves when its payload is `p`. -/
def encDone (s : State) (p : List Byte) : State :=
  succeed .enc
    { s with
      buf := Memory.put (Memory.put (Memory.put (Memory.put s.buf 0 s.addr) 1 s.fc)
          (s.plen.toNat + 2) (lowByte (crc16 ([s.addr, s.fc] ++ p))))
          (s.plen.toNat + 3) (highByte (crc16 ([s.addr, s.fc] ++ p)))
      crc := crc16 ([s.addr, s.fc] ++ p)
      flen := BitVec.ofNat 9 (s.plen.toNat + 4) }

/-- The state `DEC` leaves on the frame `[a, f] ++ p ++ [lo, hi]`. -/
def decDone (s : State) (a f : Byte) (p : List Byte) : State :=
  succeed .dec
    { s with crc := crc16 ([a, f] ++ p), addr := a, fc := f, plen := BitVec.ofNat 9 p.length }

/-- The bytes `ENC` runs the checksum over: its two stores, then the payload. -/
theorem memRead_enc (s : State) :
    memRead (Memory.put (Memory.put s.buf 0 s.addr) 1 s.fc) 0 (s.plen.toNat + 2) =
      match memRead s.buf 2 s.plen.toNat with
      | .ok p => .ok ([s.addr, s.fc] ++ p)
      | .error f => .error f := by
  have h : ∀ n k, 2 ≤ k →
      memRead (Memory.put (Memory.put s.buf 0 s.addr) 1 s.fc) k n = memRead s.buf k n := by
    intro n
    induction n with
    | zero => intros; rfl
    | succ n ih =>
      intro k hk
      have e : loadByte (Memory.put (Memory.put s.buf 0 s.addr) 1 s.fc) k = loadByte s.buf k := by
        simp only [loadByte, get_put]
        rw [if_neg (by omega), if_neg (by omega)]
      rw [memRead_succ, memRead_succ, e, ih (k + 1) (by omega)]
  rw [memRead_succ, memRead_succ, h _ _ (by omega)]
  simp only [loadByte, get_put]
  cases memRead s.buf (0 + 1 + 1) s.plen.toNat <;> rfl

theorem execEnc_eq (s : State) : execEnc s =
    if encodingFails s = true then .next (raise .encodingError .enc s)
    else match memRead s.buf 2 s.plen.toNat with
      | .ok p => .next (encDone s p)
      | .error f => .fault f := by
  unfold execEnc encBody
  split_ifs with h
  · rfl
  · simp only [store_buf, store_fc, memRead_enc]
    cases memRead s.buf 2 s.plen.toNat <;> rfl

/-- Everything `ENC` can do. -/
theorem execEnc_cases (s : State) :
    ((247 < s.addr.toNat ∨ 252 < s.plen.toNat) ∧ execEnc s = .next (raise .encodingError .enc s)) ∨
    (s.addr.toNat ≤ 247 ∧ s.plen.toNat ≤ 252 ∧ ∃ p : List Byte, p.length = s.plen.toNat ∧ holds s.buf 2 p ∧
      execEnc s = .next (encDone s p)) ∨
    (s.addr.toNat ≤ 247 ∧ s.plen.toNat ≤ 252 ∧ ∃ i < s.plen.toNat, Memory.get s.buf (2 + i) = none ∧
      (∀ j < i, Memory.get s.buf (2 + j) ≠ none) ∧ execEnc s = .fault (.undefinedRead (2 + i))) := by
  rw [execEnc_eq]
  split_ifs with h
  · exact .inl ⟨(encodingFails_iff s).1 h, rfl⟩
  · rw [encodingFails_iff] at h
    cases hp : memRead s.buf 2 s.plen.toNat with
    | ok p =>
      obtain ⟨hl, hg⟩ := (memRead_ok_iff ..).1 hp
      exact .inr (.inl ⟨by omega, by omega, p, hl, by rw [← hl] at hg; exact hg, rfl⟩)
    | error f =>
      obtain ⟨i, hi, hn, rfl, hj⟩ := (memRead_error_iff ..).1 hp
      exact .inr (.inr ⟨by omega, by omega, i, hi, hn, hj, rfl⟩)

/-- The bytes of a buffer range, when every cell of it is written. -/
theorem memRead_add (m : Memory) (k a b : Nat) :
    memRead m k (a + b) =
      match memRead m k a with
      | .error f => .error f
      | .ok s =>
        match memRead m (k + a) b with
        | .error f => .error f
        | .ok t => .ok (s ++ t) := by
  induction a generalizing k with
  | zero =>
    simp only [Nat.zero_add, memRead, Nat.add_zero]
    cases memRead m k b <;> rfl
  | succ a ih =>
    rw [Nat.add_right_comm, memRead_succ, memRead_succ, ih (k + 1)]
    cases loadByte m k with
    | error f => rfl
    | ok c =>
      cases memRead m (k + 1) a with
      | error f => rfl
      | ok s =>
        simp only [Nat.add_assoc, Nat.add_comm 1 a]
        cases memRead m (k + (a + 1)) b <;> rfl

/-- A list of at least four bytes is two bytes, a middle and two bytes. -/
theorem frame_split (bs : List Byte) (h : 4 ≤ bs.length) :
    ∃ (a f lo hi : Byte) (p : List Byte), bs = [a, f] ++ p ++ [lo, hi] := by
  obtain ⟨a, f, rest, rfl⟩ : ∃ a f rest, bs = a :: f :: rest := by
    match bs, h with
    | a :: f :: rest, _ => exact ⟨a, f, rest, rfl⟩
  have hr : 2 ≤ rest.length := by simpa using h
  refine ⟨a, f, rest[rest.length - 2], rest[rest.length - 1], rest.take (rest.length - 2), ?_⟩
  have : rest = rest.take (rest.length - 2) ++ [rest[rest.length - 2], rest[rest.length - 1]] := by
    conv_lhs => rw [← List.take_append_drop (rest.length - 2) rest]
    congr 1
    apply List.ext_getElem
    · simp
      omega
    · intro i h1 h2
      have : i < 2 := by simpa using h2
      interval_cases i
      · simp
      · simp
        congr 1
        omega
  simpa using this

/-- `decode` on a sequence of at least four bytes. -/
theorem frameDecode_frame (a f lo hi : Byte) (p : List Byte) :
    frameDecode ([a, f] ++ p ++ [lo, hi]) =
      if crc16 ([a, f] ++ p) ≠ joinBytes hi lo then .error .checksumError else .ok ⟨a, f, p⟩ := by
  have h1 : ([a, f] ++ p ++ [lo, hi]).take (p.length + 2) = [a, f] ++ p := by
    rw [List.take_append_of_le_length (by simp), List.take_of_length_le (by simp)]
  have h2 : ([a, f] ++ p ++ [lo, hi]).getD (p.length + 3) 0 = hi := by
    rw [List.getD_append_right _ _ _ _ (by simp)]
    simp
  have h3 : ([a, f] ++ p ++ [lo, hi]).getD (p.length + 2) 0 = lo := by
    rw [List.getD_append_right _ _ _ _ (by simp)]
    simp
  have hl : ([a, f] ++ p ++ [lo, hi]).length = p.length + 4 := by simp
  unfold frameDecode
  simp only [hl, show p.length + 4 - 2 = p.length + 2 by omega,
    show p.length + 4 - 1 = p.length + 3 by omega, h1, h2, h3]
  rw [if_neg (by simp only [Config.frameMin]; omega)]
  rfl

theorem frameDecode_short (bs : List Byte) (h : bs.length < 4) : frameDecode bs = .error .truncatedFrameError := by
  unfold frameDecode
  exact if_pos h

/-- Everything `DEC` can do. -/
theorem execDec_cases (s : State) :
    (256 < s.flen.toNat ∧ execDec s = .next (raise .overlengthError .dec s)) ∨
    (s.flen.toNat < 4 ∧ execDec s = .next (raise .truncatedFrameError .dec s)) ∨
    (4 ≤ s.flen.toNat ∧ s.flen.toNat ≤ 256 ∧ ∃ i < s.flen.toNat, Memory.get s.buf i = none ∧
      (∀ j < i, Memory.get s.buf j ≠ none) ∧ execDec s = .fault (.undefinedRead i)) ∨
    (4 ≤ s.flen.toNat ∧ s.flen.toNat ≤ 256 ∧ ∃ (a f lo hi : Byte) (p : List Byte), p.length + 4 = s.flen.toNat ∧
      holds s.buf 0 ([a, f] ++ p ++ [lo, hi]) ∧
      ((crc16 ([a, f] ++ p) ≠ joinBytes hi lo ∧
          execDec s = .next (raise .checksumError .dec (s.setCrc (crc16 ([a, f] ++ p))))) ∨
        (crc16 ([a, f] ++ p) = joinBytes hi lo ∧ execDec s = .next (decDone s a f p)))) := by
  by_cases h1 : 256 < s.flen.toNat
  · exact .inl ⟨h1, by simp [execDec, decBody, h1, outcome]⟩
  by_cases h2 : s.flen.toNat < 4
  · exact .inr (.inl ⟨h2, by simp [execDec, decBody, h2, show ¬ 256 < s.flen.toNat by omega, outcome]⟩)
  refine .inr (.inr ?_)
  have hle : 4 ≤ s.flen.toNat := by omega
  obtain ⟨n, hn⟩ : ∃ n, s.flen.toNat = n + 4 := ⟨s.flen.toNat - 4, by omega⟩
  cases hm : memRead s.buf 0 s.flen.toNat with
  | error e =>
    obtain ⟨i, hi, hg, rfl, hj⟩ := (memRead_error_iff ..).1 hm
    simp only [Nat.zero_add] at hg hj hm
    refine .inl ⟨hle, by omega, i, hi, hg, hj, ?_⟩
    simp only [execDec, decBody, hn, show ¬ n + 4 > Config.bufSize by simp only [Config.bufSize]; omega,
      show ¬ n + 4 < Config.frameMin by simp only [Config.frameMin]; omega, if_false,
      show n + 4 - 2 = n + 2 by omega, show n + 4 - 1 = n + 3 by omega]
    by_cases hi2 : i < n + 2
    · have hb : memRead s.buf 0 (n + 2) = .error (.undefinedRead i) :=
        (memRead_error_iff ..).2 ⟨i, hi2, by simpa using hg, by simp, by simpa using hj⟩
      simp only [hb, bind, Except.bind, outcome]
    · obtain ⟨body, hb⟩ : ∃ body, memRead s.buf 0 (n + 2) = .ok body := by
        cases hb : memRead s.buf 0 (n + 2) with
        | ok body => exact ⟨body, rfl⟩
        | error e =>
          obtain ⟨j, hj1, hj2, -⟩ := (memRead_error_iff ..).1 hb
          exact absurd (by simpa using hj2) (hj j (by omega))
      by_cases hi3 : i = n + 2
      · have hlo : loadByte s.buf (n + 2) = .error (.undefinedRead i) := by simp [← hi3, hg]
        simp only [hb, hlo, bind, Except.bind, outcome]
      · have hi4 : i = n + 3 := by omega
        obtain ⟨lo, hlo⟩ : ∃ lo, loadByte s.buf (n + 2) = .ok lo := by
          simpa using Option.ne_none_iff_exists'.1 (hj (n + 2) (by omega))
        have hhi : loadByte s.buf (n + 3) = .error (.undefinedRead i) := by simp [← hi4, hg]
        simp only [hb, hlo, hhi, bind, Except.bind, outcome]
  | ok bs =>
    obtain ⟨hl, hg⟩ := (memRead_ok_iff ..).1 hm
    obtain ⟨a, f, lo, hi, p, rfl⟩ := frame_split bs (by omega)
    have hp : p.length = n := by simp at hl; omega
    refine .inr ⟨hle, by omega, a, f, lo, hi, p, by omega, by rw [← hl] at hg; exact hg, ?_⟩
    have hbody : memRead s.buf 0 (n + 2) = .ok ([a, f] ++ p) := by
      refine (memRead_ok_iff ..).2 ⟨by simp [hp], fun i hi' => ?_⟩
      rw [hg i (by omega), List.getElem?_append_left (by simp; omega)]
    have hlo : loadByte s.buf (n + 2) = .ok lo := by
      have := hg (n + 2) (by omega)
      rw [List.getElem?_append_right (by simp; omega)] at this
      simpa [hp] using this
    have hhi : loadByte s.buf (n + 3) = .ok hi := by
      have := hg (n + 3) (by omega)
      rw [List.getElem?_append_right (by simp; omega)] at this
      simpa [hp] using this
    have ha : loadByte s.buf 0 = .ok a := by simpa using hg 0 (by omega)
    have hf : loadByte s.buf 1 = .ok f := by simpa using hg 1 (by omega)
    have key : execDec s =
        if crc16 ([a, f] ++ p) ≠ joinBytes hi lo then
          .next (raise .checksumError .dec (s.setCrc (crc16 ([a, f] ++ p))))
        else .next (decDone s a f p) := by
      simp only [execDec, decBody, hn, show ¬ n + 4 > Config.bufSize by simp only [Config.bufSize]; omega,
        show ¬ n + 4 < Config.frameMin by simp only [Config.frameMin]; omega, if_false,
        show n + 4 - 2 = n + 2 by omega, show n + 4 - 1 = n + 3 by omega, Nat.add_sub_cancel]
      simp only [hbody, hlo, hhi, bind, Except.bind, setCrc_buf, ha, hf]
      split_ifs
      · rfl
      · rw [← hp]
        rfl
    rw [key]
    by_cases hc : crc16 ([a, f] ++ p) = joinBytes hi lo
    · exact .inr ⟨hc, if_neg (not_not.2 hc)⟩
    · exact .inl ⟨hc, if_pos hc⟩

/-- Cells hold one sequence of a length. -/
theorem holds_unique {m : Memory} {k : Nat} {p q : List Byte} (hl : p.length = q.length) (hp : holds m k p)
    (hq : holds m k q) : p = q := by
  apply List.ext_getElem?
  intro i
  by_cases hi : i < p.length
  · rw [← hp i hi, ← hq i (hl ▸ hi)]
  · rw [List.getElem?_eq_none (by omega), List.getElem?_eq_none (by omega)]

/-- What each cell of `BUF` holds after a successful `ENC`. -/
theorem encDone_get (s : State) (p : List Byte) (k : Nat) :
    Memory.get (encDone s p).buf k =
      if k = s.plen.toNat + 3 then some (highByte (crc16 ([s.addr, s.fc] ++ p)))
      else if k = s.plen.toNat + 2 then some (lowByte (crc16 ([s.addr, s.fc] ++ p)))
      else if k = 1 then some s.fc
      else if k = 0 then some s.addr
      else Memory.get s.buf k := by
  simp only [encDone, succeed_buf, get_put]

/-- `DEC` as one expression over the bytes it reads and the function `decode`. -/
theorem execDec_eq (s : State) : execDec s =
    if 256 < s.flen.toNat then .next (raise .overlengthError .dec s)
    else if s.flen.toNat < 4 then .next (raise .truncatedFrameError .dec s)
    else match memRead s.buf 0 s.flen.toNat with
      | .error f => .fault f
      | .ok bs =>
        match frameDecode bs with
        | .error _ => .next (raise .checksumError .dec (s.setCrc (crc16 (bs.take (s.flen.toNat - 2)))))
        | .ok f => .next (decDone s f.address f.functionCode f.payload) := by
  rcases execDec_cases s with ⟨h1, h⟩ | ⟨h1, h⟩ | ⟨h1, h2, i, hi, hn, hm, h⟩ | ⟨h1, h2, a, f, lo, hi, p, hp, hh, h⟩
  · rw [if_pos h1, h]
  · rw [if_neg (by omega), if_pos h1, h]
  · have hr : memRead s.buf 0 s.flen.toNat = .error (.undefinedRead i) :=
      (memRead_error_iff ..).2 ⟨i, hi, by simpa using hn, by simp, by simpa using hm⟩
    rw [if_neg (by omega), if_neg (by omega), h, hr]
  · have hl : ([a, f] ++ p ++ [lo, hi]).length = s.flen.toNat := by
      simp
      omega
    have hr : memRead s.buf 0 s.flen.toNat = .ok ([a, f] ++ p ++ [lo, hi]) :=
      (memRead_ok_iff ..).2 ⟨hl, by rw [← hl]; exact hh⟩
    have ht : ([a, f] ++ p ++ [lo, hi]).take (s.flen.toNat - 2) = [a, f] ++ p := by
      rw [List.take_append_of_le_length (by simp; omega), List.take_of_length_le (by simp; omega)]
    rw [if_neg (by omega), if_neg (by omega), hr]
    simp only [frameDecode_frame]
    rcases h with ⟨hc, h⟩ | ⟨hc, h⟩
    · rw [if_pos hc, h]
      simp only [ht]
    · rw [if_neg (not_not.2 hc), h]

end Sys2Proof.Machine
end

