-- ==== Sys2Proof/Tests/Slice0.lean ====
section
/-! SUPPORT. Tests: the expected values are those of spec/95_test_vectors.md and of the encodings of spec/30_encoding.md, none is
the model's own answer. After them, for every statement with hypotheses, a witness that meets them. -/

namespace Sys2Proof.Tests

open Sys2Proof Sys2Proof.Machine

/-! ## Well-formedness: an ill-formed term for each check -/

theorem test_wf_no_such_opcode : commandWordWellFormed 0x4000 = false := by decide
theorem test_wf_enc_with_immediate : commandWordWellFormed 0x1001 = false := by decide
theorem test_wf_every_row : ([0x0000, 0x0100, 0x0200, 0x02FF, 0x1000, 0x2000, 0x3000] : List Word).all commandWordWellFormed := by
  decide
theorem test_wf_ldbuf : ldbufFits 255 1 = true ∧ ldbufFits 255 2 = false := by decide
theorem test_wf_encode : encodeFits 254 = true ∧ encodeFits 255 = false := by decide
theorem test_wf_decode : decodeFits 256 = true ∧ decodeFits 257 = false := by decide
/-- No command is ill formed: the width of `imm8` is the type's. -/
theorem test_wf_command : (Instr.crcByte 0xFF).wellFormed = true := by decide

/-! ## Decoding: words written out from R58 and R60, `opcode` in bits 15:8, `imm8` in bits 7:0 -/

theorem test_decode_nop : decode 0b0000000000000000#16 = .ok .nop := by rfl
theorem test_decode_crc_init : decode 0b0000000100000000#16 = .ok .crcInit := by rfl
theorem test_decode_crc_byte : decode 0b0000001010000001#16 = .ok (.crcByte 0x81) := by rfl
theorem test_decode_enc : decode 0b0001000000000000#16 = .ok .enc := by rfl
theorem test_decode_dec : decode 0b0010000000000000#16 = .ok .dec := by rfl
theorem test_decode_clr : decode 0b0011000000000000#16 = .ok .clr := by rfl
/-- V9 row 11. -/
theorem test_decode_no_such_opcode : decode 0b0100000000000000#16 = .error (.opcode 0x40) := by rfl
/-- V9 row 10. -/
theorem test_decode_enc_with_immediate : decode 0b0001000000000001#16 = .error (.immediate 0x10 0x01) := by rfl
/-- A table word of 16 bits, and one that is not a command word. -/
theorem test_decode_table_word : decodeTableWord 16 0x02FF = some (.crcByte 0xFF) ∧ decodeTableWord 16 0x4000 = none := by
  decide

/-! ## The checksum -/

/-- The nine bytes of the ASCII digits 1 to 9. -/
def digits : List Byte := [0x31, 0x32, 0x33, 0x34, 0x35, 0x36, 0x37, 0x38, 0x39]

/-- V1: band3's vector. -/
theorem test_crc16_source_vector : crc16 [0x01, 0x03, 0x00, 0x00, 0x00, 0x01] = 0x0A84 := by decide +kernel
/-- V4 row 10. -/
theorem test_crc16_check_value : crc16 digits = 0x4B37 := by decide +kernel
/-- V4 rows 7, 8, 9: a checksum of 0, and the order of the bytes. -/
theorem test_crc16_zero_and_order : crc16 [0xFF, 0xFF] = 0x0000 ∧ crc16 [0x01, 0x03] = 0x2140 ∧ crc16 [0x03, 0x01] = 0x80C0 := by
  decide +kernel
/-- V5, steps 1, 2, 7 and 8. -/
theorem test_crc_update_steps : crcShift 0xFFFE = 0x7FFF ∧ crcShift 0x7FFF = 0x9FFE ∧ crcShift 0x81FE = 0x40FF ∧
    crcShift 0x40FF = 0x807E := by decide +kernel

/-- V6: the spot checks and the last row of the table. -/
theorem test_crc_table : crcTable 0x01 = 0xC0C1 ∧ crcTable 0x80 = 0xA001 ∧
    [0xF8, 0xF9, 0xFA, 0xFB, 0xFC, 0xFD, 0xFE, 0xFF].map crcTable =
      [0x8201, 0x42C0, 0x4380, 0x8341, 0x4100, 0x81C1, 0x8081, 0x4040] := by decide +kernel

/-! ## One step of each command -/

/-- The state after reset with these events to take. -/
def issued (es : List Event) : State := { State.reset with pending := es }

/-- The cells from `k` on hold these bytes, the others are unwritten. -/
def fill (k : Nat) : List Byte → Memory
  | []      => []
  | b :: bs => (k, b) :: fill (k + 1) bs

/-- A state with these operands of `ENC`. -/
def encOperands (a f : Byte) (p : List Byte) : State :=
  { State.reset with addr := a, fc := f, plen := BitVec.ofNat 9 p.length, buf := fill 2 p }

/-- A state with these raw bytes for `DEC`. -/
def decOperands (bs : List Byte) : State :=
  { State.reset with flen := BitVec.ofNat 9 bs.length, buf := fill 0 bs }

/-- V9 row 12. -/
theorem test_nop : step (issued [.write 0x000 0x0000]) = .next State.reset := rfl
/-- `CRC.INIT` after a stream (R75). -/
theorem test_crc_init : step { issued [.write 0x000 0x0100] with crc := 0x807E } = .next State.reset := rfl
/-- The outcome is a next state that passes the check. -/
def reaches (o : Host.Outcome State Fault Refusal) (check : State → Bool) : Bool :=
  match o with
  | .next t    => check t
  | .fault _   => false
  | .refused _ => false

/-- V9 row 13. -/
theorem test_crc_byte : reaches (step (issued [.write 0x000 0x02FF])) (fun t => t.crc == 0x00FF && t.status == 0x0000) := by
  decide +kernel
/-- P6: the stream goes on from `ENC`'s checksum. -/
theorem test_crc_byte_continues : reaches (exec (.crcByte 0x03) { State.reset with crc := 0x2140 }) (fun t => t.crc == 0xF160) := by
  decide +kernel
/-- V7 row 2. -/
theorem test_enc : reaches (exec .enc (encOperands 0x11 0x03 [0x00, 0x6B, 0x00, 0x03])) (fun t =>
    t.buf == fill 0 [0x11, 0x03, 0x00, 0x6B, 0x00, 0x03, 0x76, 0x87] && t.crc == 0x8776 && t.flen == 8 && t.status == 0x0010) := by
  decide +kernel
/-- V7 row 8. -/
theorem test_enc_address_out_of_range : reaches (exec .enc (encOperands 0xF8 0x03 [])) (fun t =>
    t.status == 0x0011 && t.crc == 0xFFFF && t.flen == 0 && t.buf == []) := by decide +kernel
/-- V8 row 1. -/
theorem test_dec : reaches (exec .dec (decOperands [0x01, 0x03, 0x02, 0x12, 0x34, 0xB5, 0x33])) (fun t =>
    t.addr == 0x01 && t.fc == 0x03 && t.plen == 3 && t.crc == 0x33B5 && t.status == 0x0020) := by decide +kernel
/-- V8 row 8: the checksum bytes swapped. -/
theorem test_dec_checksum_error : reaches (exec .dec (decOperands [0x01, 0x03, 0x02, 0x12, 0x34, 0x33, 0xB5])) (fun t =>
    t.addr == 0x00 && t.fc == 0x00 && t.plen == 0 && t.crc == 0x33B5 && t.status == 0x0023) := by decide +kernel
/-- P5: what `CLR` leaves, `BUF` kept. -/
theorem test_clr : exec .clr { State.reset with status := 0x0090, crc := 0x8047, addr := 0xF7, flen := 4, buf := [(0, 0xF7)] } =
    .next { State.reset with buf := [(0, 0xF7)] } := rfl
/-- R160: the reset event clears every written mark. -/
theorem test_reset_event : step { issued [.reset] with status := 0x0091, crc := 0x8047, buf := [(0, 0xF7)] } = .next State.reset :=
  rfl

/-! ## One step of each kind of transaction (V9) -/

/-- Row 2. -/
theorem test_write_too_wide : step (issued [.write 0x003 0x01F7]) = .next { State.reset with status := 0x0080 } := rfl
/-- Rows 3 and 4. -/
theorem test_write_length : step (issued [.write 0x005 0x01FF]) = .next { State.reset with plen := 511 } ∧
    step (issued [.write 0x005 0x0200]) = .next { State.reset with status := 0x0080 } := ⟨rfl, rfl⟩
/-- Rows 6, 9 and 10. -/
theorem test_write_refused : ∀ e ∈ [Event.write 0x001 0x0000, .write 0x007 0x0000, .write 0x000 0x1001],
    step (issued [e]) = .next { State.reset with status := 0x0080 } := by
  simp only [List.forall_mem_cons, List.not_mem_nil, false_implies, implies_true, and_true]
  exact ⟨rfl, rfl, rfl⟩
/-- Row 8. -/
theorem test_read_reserved : step (issued [.read 0x050]) = .next { State.reset with status := 0x0080, answers := [0x0000] } := rfl
/-- Row 18. -/
theorem test_read_unwritten : step (issued [.read 0x100]) = .fault (.undefinedRead 0) := rfl
/-- Row 17. -/
theorem test_dec_unwritten : exec .dec { State.reset with flen := 4 } = .fault (.undefinedRead 0) := rfl

/-! ## Witnesses: the hypotheses of the statements can be met

A state below meets the hypotheses of the statement its name begins with; a bound is met at its two ends. -/

theorem holds_fill (k : Nat) (bs : List Byte) : holds (fill k bs) k bs := by
  have h : ∀ (bs : List Byte) (k i : Nat), i < bs.length → Memory.get (fill k bs) (k + i) = bs[i]? := by
    intro bs
    induction bs with
    | nil => intro _ i hi; simp at hi
    | cons b bs ih =>
      intro k i hi
      cases i with
      | zero => simp [fill, get_cons]
      | succ i =>
        have hn : ¬ (k + (i + 1) = k) := by omega
        rw [fill, get_cons, if_neg hn, show k + (i + 1) = k + 1 + i by omega]
        simpa using ih (k + 1) i (by simpa using hi)
  exact fun i hi => h bs k i hi

theorem reaches_next {o : Host.Outcome State Fault Refusal} {check : State → Bool} (h : reaches o check) :
    ∃ t, o = .next t ∧ check t = true := by
  cases o with
  | next t => exact ⟨t, rfl, h⟩
  | fault f => simp [reaches] at h
  | refused r => simp [reaches] at h

/-- The command has a next state. -/
abbrev completes (i : Instr) (s : State) : Prop := reaches (exec i s) (fun _ => true) = true

/-- The longest payload. -/
def longest : List Byte := List.replicate 252 0x5A

theorem longest_length : longest.length = 252 := List.length_replicate

theorem witness_CmdWriteRunsSelectedCommand :
    (∃ i, (issued [.write 0x000 0x1000]).pending = .write 0x000 0x1000 :: [] ∧ decode 0x1000 = .ok i) ∧
    (∃ r, (issued [.write 0x000 0x4000]).pending = .write 0x000 0x4000 :: [] ∧ decode 0x4000 = .error r) ∧
    (issued [.read 0x000]).pending = .read 0x000 :: [] := ⟨⟨_, rfl, rfl⟩, ⟨_, rfl, rfl⟩, rfl⟩

theorem witness_FetchWordIsTheNextCommand : ∃ i, decodeTableWord 16 0x02FF = some i := ⟨_, rfl⟩

theorem witness_DecodeAndEncodeAgree : ∃ i, decode 0x3000 = .ok i := ⟨_, rfl⟩

theorem witness_OpcodeMapSelectsCommand : ∃ r q : OpcodeRow, r ∈ opcodeMap ∧ q ∈ opcodeMap ∧
    (0x02FF : Word) &&& r.mask = r.pattern ∧ (0x02FF : Word) &&& q.mask = q.pattern :=
  ⟨⟨"CRC.BYTE", 0x0200, 0xFF00⟩, ⟨"CRC.BYTE", 0x0200, 0xFF00⟩, by decide, by decide, by decide, by decide⟩

theorem witness_ReservedWordOnlySetsAccErr : (issued [.write 0x000 0x1001]).pending = .write 0x000 0x1001 :: [] ∧
    ∀ r ∈ opcodeMap, (0x1001 : Word) &&& r.mask ≠ r.pattern := by decide

theorem witness_NopChangesNothing : (0x01 : Byte) ≠ 0x00 ∧ (0xFF : Byte) ≠ 0x00 := by decide

theorem witness_CrcInitSetsInitialValue : (0x01 : Byte) ≠ 0x00 ∧ (0xFF : Byte) ≠ 0x00 := by decide

theorem witness_ClrRestoresRegisterCells :
    (∃ t, exec .nop { State.reset with status := 0x0080 } = .next t ∧ Instr.nop ≠ .clr ∧
      State.accErr { State.reset with status := 0x0080 } = true) ∧
    (∃ t u, exec .clr State.reset = .next t ∧ hostReset State.reset = .next u) :=
  ⟨⟨_, rfl, by decide, by decide⟩, ⟨_, _, rfl, rfl⟩⟩

theorem witness_ResetEventRestoresResetState : (issued [.reset, .read 0x001]).pending = .reset :: [.read 0x001] := rfl

theorem witness_EncBuildsEncodedFrame (p : List Byte) (h : p = [] ∨ p = longest) :
    (encOperands 0xF7 0x10 p).addr.toNat ≤ 247 ∧ p.length = (encOperands 0xF7 0x10 p).plen.toNat ∧ p.length ≤ 252 ∧
    holds (encOperands 0xF7 0x10 p).buf 2 p := by
  have hl : p.length ≤ 252 := by
    rcases h with rfl | rfl
    · simp
    · rw [longest_length]
  exact ⟨show 247 ≤ 247 by omega, (toNat_ofNat_length _ (by omega)).symm, hl, holds_fill 2 p⟩

theorem witness_FailedEncChangesOnlyOutcome :
    247 < (State.addr { State.reset with addr := 248 }).toNat ∧ 252 < (State.plen { State.reset with plen := 253 }).toNat := by
  decide

theorem witness_EncFrame : completes .enc State.reset ∧ completes .enc { State.reset with addr := 248 } := by decide +kernel

/-- Raw bytes of `n` zeros. -/
def zeros (n : Nat) : List Byte := List.replicate n 0x00

/-- A frame around a payload, with its checksum. -/
def framed (a f : Byte) (p : List Byte) : List Byte :=
  [a, f] ++ p ++ [lowByte (crc16 ([a, f] ++ p)), highByte (crc16 ([a, f] ++ p))]

theorem framed_decodes (a f : Byte) (p : List Byte) : frameDecode (framed a f p) = .ok ⟨a, f, p⟩ := by
  rw [framed, frameDecode_frame, if_neg (not_not.2 (joinBytes_split _).symm)]

theorem framed_length (a f : Byte) (p : List Byte) : (framed a f p).length = p.length + 4 := by simp [framed]

theorem decOperands_flen (bs : List Byte) (h : bs.length ≤ 256) : (decOperands bs).flen.toNat = bs.length :=
  toNat_ofNat_length _ (by omega)

/-- Success on 4 and on 256 bytes, each error the function reports, and the two ends of the over-long range. -/
theorem witness_DecAgreesWithDecode :
    (∀ p : List Byte, p = [] ∨ p = longest →
      (framed 0xF7 0x10 p).length = (decOperands (framed 0xF7 0x10 p)).flen.toNat ∧ (framed 0xF7 0x10 p).length ≤ 256 ∧
      holds (decOperands (framed 0xF7 0x10 p)).buf 0 (framed 0xF7 0x10 p) ∧
      ∃ f, frameDecode (framed 0xF7 0x10 p) = .ok f) ∧
    (∀ n : Nat, n = 3 ∨ n = 4 →
      (zeros n).length = (decOperands (zeros n)).flen.toNat ∧ (zeros n).length ≤ 256 ∧
      holds (decOperands (zeros n)).buf 0 (zeros n) ∧ ∃ e, frameDecode (zeros n) = .error e) ∧
    (∀ l : Length, l = 257 ∨ l = 511 → 256 < (State.flen { State.reset with flen := l }).toNat) ∧
    (∃ frame, frameEncode 247 0x10 longest = .ok frame) := by
  refine ⟨fun p h => ?_, fun n h => ?_, fun l h => ?_, ?_⟩
  · have hl : (framed 0xF7 0x10 p).length ≤ 256 := by
      rw [framed_length]
      rcases h with rfl | rfl
      · simp
      · rw [longest_length]
    exact ⟨(decOperands_flen _ hl).symm, hl, holds_fill 0 _, _, framed_decodes _ _ _⟩
  · have hl : (zeros n).length ≤ 256 := by
      rw [zeros, List.length_replicate]
      omega
    refine ⟨(decOperands_flen _ hl).symm, hl, holds_fill 0 _, ?_⟩
    rcases h with rfl | rfl
    · exact ⟨.truncatedFrameError, rfl⟩
    · exact ⟨.checksumError, by decide +kernel⟩
  · rcases h with rfl | rfl <;> decide
  · exact ⟨_, if_neg (by rw [longest_length]; decide)⟩

theorem witness_DecGoodFrameNextState (p : List Byte) (h : p = [] ∨ p = longest) :
    ∃ lo hi : Byte, p.length + 4 = (decOperands (framed 0xF7 0x10 p)).flen.toNat ∧ p.length ≤ 252 ∧
      holds (decOperands (framed 0xF7 0x10 p)).buf 0 ([0xF7, 0x10] ++ p ++ [lo, hi]) ∧
      crc16 ([0xF7, 0x10] ++ p) = hi ++ lo := by
  have hl : p.length ≤ 252 := by
    rcases h with rfl | rfl
    · simp
    · rw [longest_length]
  refine ⟨_, _, ?_, hl, holds_fill 0 _, (joinBytes_split _).symm⟩
  rw [decOperands_flen _ (by rw [framed_length]; omega), framed_length]

/-- 4 and 256 bytes. -/
theorem witness_DecChecksumErrorNextState (n : Nat) (h : n = 2 ∨ n = 254) :
    ∃ lo hi : Byte, (zeros n).length + 2 = (decOperands (zeros n ++ [lo, hi])).flen.toNat ∧ 2 ≤ (zeros n).length ∧
      (zeros n).length ≤ 254 ∧ holds (decOperands (zeros n ++ [lo, hi])).buf 0 (zeros n ++ [lo, hi]) ∧
      crc16 (zeros n) ≠ hi ++ lo := by
  have hl : (zeros n).length = n := List.length_replicate
  obtain ⟨lo, hi, hc⟩ : ∃ lo hi : Byte, crc16 (zeros n) ≠ hi ++ lo := by
    by_cases h0 : crc16 (zeros n) = (0x00 : Byte) ++ (0x00 : Byte)
    · exact ⟨0x01, 0x00, fun h1 => absurd (h0.symm.trans h1) (by decide)⟩
    · exact ⟨0x00, 0x00, h0⟩
  refine ⟨lo, hi, ?_, by omega, by omega, holds_fill 0 _, hc⟩
  have ht : (zeros n ++ [lo, hi]).length = (zeros n).length + 2 := by simp
  rw [decOperands_flen _ (by omega), ht]

/-- `FLEN` = 3 with nothing written, and `FLEN` = 4 on written cells. -/
theorem witness_TruncationDependsOnLengthAlone : (State.flen { State.reset with flen := 3 }).toNat < 4 ∧
    4 ≤ (decOperands (zeros 4)).flen.toNat ∧ completes .dec (decOperands (zeros 4)) := by
  decide +kernel

/-- The three failures of `DEC`. -/
theorem witness_FailedDecReportsNoFrame :
    (reaches (exec .dec State.reset) fun t => t.err != 0) ∧
    (reaches (exec .dec { State.reset with flen := 257 }) fun t => t.err != 0) ∧
    (reaches (exec .dec (decOperands (zeros 4))) fun t => t.err != 0) := by decide +kernel

/-- `DEC` that succeeds and `DEC` that fails. -/
theorem witness_DecFrame : completes .dec (decOperands [0x01, 0x03, 0x40, 0x21]) ∧ completes .dec State.reset := by decide +kernel

/-- `ENC` at the ends of its ranges, `DEC` on a length below, at and above its bounds. -/
theorem witness_ErrorCodesHaveTheirCauses :
    (reaches (exec .enc { State.reset with addr := 247 }) fun t => t.err == 0) ∧
    (reaches (exec .enc { State.reset with addr := 248 }) fun t => t.err == 1) ∧
    (reaches (exec .enc { State.reset with plen := 253 }) fun t => t.err == 1) ∧
    (reaches (exec .dec { State.reset with flen := 3 }) fun t => t.err == 2) ∧
    (reaches (exec .dec (decOperands (zeros 4))) fun t => t.err == 3) ∧
    (reaches (exec .dec (decOperands [0x01, 0x03, 0x40, 0x21])) fun t => t.err == 0) ∧
    (reaches (exec .dec { State.reset with flen := 257 }) fun t => t.err == 4) := by decide +kernel

/-- An event of each clause, with a next state. -/
theorem witness_OutcomeWrittenByCodecCommandsOnly :
    ∀ e ∈ [Event.write 0x000 0x1000, .write 0x000 0x2000, .write 0x000 0x3000, .reset, .read 0x001],
      (issued [e]).pending = e :: [] ∧ reaches (step (issued [e])) fun _ => true := by decide +kernel

/-- A refused event of each kind of R35, and an event of each clause that is not refused, with its next state. -/
theorem witness_AccErrSetByRefusalsOnly :
    (∀ e ∈ [Event.read 0x007, .read 0x0FF, .write 0x007 0, .write 0x0FF 0, .write 0x001 0, .write 0x002 0, .write 0x003 0x100,
        .write 0x004 0x100, .write 0x005 0x200, .write 0x006 0x200, .write 0x100 0x100, .write 0x1FF 0x100, .write 0x000 0x4000],
      (issued [e]).pending = e :: [] ∧ refusedEvent e = true) ∧
    (∀ e ∈ [Event.write 0x000 0x3000, .reset, .read 0x006, .write 0x003 0xFF, .write 0x005 0x1FF, .write 0x100 0xFF],
      (issued [e]).pending = e :: [] ∧ refusedEvent e = false ∧ reaches (step (issued [e])) fun _ => true) := by
  decide +kernel

theorem witness_StatusWordIsItsFields : State.reset.Inv ∧ State.Inv { State.reset with status := 0x00A3 } := by decide

/-- Every read can be issued; the ends of the ranges of addresses. -/
theorem witness_HostReadReturnsCell :
    (∀ a : CellAddr, (issued [.read a]).pending = .read a :: []) ∧
    (0x007 ≤ (0x007 : CellAddr).toNat ∧ (0x007 : CellAddr).toNat ≤ 0x0FF) ∧ (0x0FF : CellAddr).toNat = 0x0FF ∧
    (0x100 : CellAddr).toNat = 0x100 + 0 ∧ Memory.get [(0, 0xF7), (255, 0x5B)] 0 = some 0xF7 ∧
    (0x1FF : CellAddr).toNat = 0x100 + 255 ∧ Memory.get [(0, 0xF7), (255, 0x5B)] 255 = some 0x5B :=
  ⟨fun _ => rfl, by decide, rfl, rfl, rfl, rfl, rfl⟩

/-- Every write can be issued; the ends of the ranges of addresses. -/
theorem witness_HostWriteStoresCell :
    (∀ (a : CellAddr) (v : Word), (issued [.write a v]).pending = .write a v :: []) ∧
    (0x007 ≤ (0x007 : CellAddr).toNat ∧ (0x007 : CellAddr).toNat ≤ 0x0FF) ∧ (0x0FF : CellAddr).toNat = 0x0FF ∧
    (0x100 : CellAddr).toNat = 0x100 + 0 ∧ (0x1FF : CellAddr).toNat = 0x100 + 255 :=
  ⟨fun _ _ => rfl, by decide, rfl, rfl, rfl⟩

/-- Every such pair can be issued; the largest value of a cell of each width is accepted. -/
theorem witness_ReadReturnsLastWrite :
    (∀ (a : CellAddr) (v : Word), (issued [.write a v, .read a]).pending = .write a v :: .read a :: []) ∧
    (refusedEvent (.write 0x003 0x00FF) = false ∧ (0x003 : CellAddr) ≠ 0x000) ∧
    (refusedEvent (.write 0x006 0x01FF) = false ∧ (0x006 : CellAddr) ≠ 0x000) ∧
    (refusedEvent (.write 0x100 0x00FF) = false ∧ (0x100 : CellAddr) ≠ 0x000) ∧
    (refusedEvent (.write 0x1FF 0x00FF) = false ∧ (0x1FF : CellAddr) ≠ 0x000) :=
  ⟨fun _ _ => rfl, by decide, by decide, by decide, by decide⟩

theorem witness_WrittenMarksFollowWrites :
    reaches (hostReset State.reset) (fun _ => true) ∧ completes .clr State.reset ∧ completes .enc State.reset ∧
    ∀ k ∈ [0, 255], k < 256 ∧
      (issued [.write (BitVec.ofNat 9 (0x100 + k)) ((0xFF : Byte).setWidth 16)]).pending =
        .write (BitVec.ofNat 9 (0x100 + k)) ((0xFF : Byte).setWidth 16) :: [] :=
  by decide +kernel

theorem witness_CommandCompletesUnlessUndefinedRead :
    undefinedCommand .enc State.reset = false ∧ undefinedCommand .enc { State.reset with plen := 252 } = true ∧
    undefinedCommand .enc { State.reset with plen := 253 } = false ∧ undefinedCommand .dec { State.reset with flen := 3 } = false ∧
    undefinedCommand .dec { State.reset with flen := 4 } = true ∧ undefinedCommand .dec { State.reset with flen := 256 } = true ∧
    undefinedCommand .dec { State.reset with flen := 257 } = false := by decide +kernel

theorem witness_EveryTransactionTerminates : State.reset.pending = [] ∧
    (issued [.read 0x001]).pending = .read 0x001 :: [] ∧ undefinedEvent (.read 0x001) (issued [.read 0x001]) = false ∧
    (issued [.read 0x1FF]).pending = .read 0x1FF :: [] ∧ undefinedEvent (.read 0x1FF) (issued [.read 0x1FF]) = true := by decide

/-- A read, and an event that is no read. -/
theorem witness_OneEventPerStep : (∃ t, step (issued [.read 0x001]) = .next t) ∧ ∃ t, step (issued [.reset]) = .next t :=
  ⟨⟨_, rfl⟩, ⟨_, rfl⟩⟩

theorem witness_StepKeepsInvariant : (issued [.write 0x100 0x00FF]).Inv ∧ ∃ t, step (issued [.write 0x100 0x00FF]) = .next t :=
  ⟨by decide, ⟨_, rfl⟩⟩

theorem witness_CrcWrittenByCommandsOnly :
    (reaches (step (issued [.write 0x000 0x0201])) fun t => t.crc != (issued [.write 0x000 0x0201]).crc) ∧
    (reaches (exec .enc { State.reset with addr := 248 }) fun t => t.err == 1) ∧
    (reaches (exec .dec State.reset) fun t => t.err == 2) ∧
    (reaches (exec .dec { State.reset with flen := 257 }) fun t => t.err == 4) := by decide +kernel

theorem witness_CleanEndMeansNothingRefused :
    (reaches (run 2 (issued [.write 0x003 0x0001, .write 0x000 0x1000])) fun t => !t.accErr) ∧
    ∀ e ∈ (issued [.write 0x003 0x0001, .write 0x000 0x1000]).pending.take 2, e ≠ .write 0x000 0x3000 ∧ e ≠ .reset := by
  decide +kernel

theorem witness_CommandsIgnoreHostSide : completes .enc State.reset ∧
    ∃ f, exec .dec { State.reset with flen := 4 } = .fault f := ⟨by decide +kernel, _, test_dec_unwritten⟩

/-- A second buffer that differs in a cell the command does not read. -/
theorem witness_CodecReadsOnlyItsCells :
    (∀ k < (decOperands (zeros 4)).flen.toNat,
      Memory.get (fill 0 (zeros 4 ++ [0x55])) k = Memory.get (decOperands (zeros 4)).buf k) ∧
    (reaches (exec .dec (decOperands (zeros 4))) fun _ => true) ∧
    (∀ k < (encOperands 1 3 [0x02]).plen.toNat,
      Memory.get (fill 2 [0x02, 0x55]) (2 + k) = Memory.get (encOperands 1 3 [0x02]).buf (2 + k)) ∧
    (reaches (exec .enc (encOperands 1 3 [0x02])) fun _ => true) := by decide +kernel

theorem witness_CodecCommandsIdempotent : completes .enc State.reset ∧ completes .dec State.reset := by decide +kernel

theorem witness_DecAfterEncSucceeds :
    (reaches (exec .enc State.reset) fun t => t.err == 0) ∧ State.reset.status &&& 0xFF48 = 0 ∧ State.reset.accErr = false := by
  decide +kernel

theorem witness_CrcUpdateIsBijective : (0x0000 : Word) ≠ 0x0001 := by decide

theorem witness_CrcResidueIsZero : 4 ≤ (zeros 4).length := by decide

theorem witness_EncodedFrameLayout (p : List Byte) (h : p = [] ∨ p = longest) : ∃ frame, frameEncode (247 : Nat) 0x10 p = .ok frame := by
  refine ⟨_, if_neg ?_⟩
  rcases h with rfl | rfl
  · decide
  · rw [longest_length]
    decide

theorem witness_FrameRoundTrip : 247 ≤ 247 ∧ longest.length ≤ 252 := ⟨by decide, by rw [longest_length]⟩

/-- V7 row 6, its last byte changed. -/
theorem witness_SingleByteErrorDetected :
    frameEncode 1 0x03 [] = .ok [0x01, 0x03, 0x40, 0x21] ∧
    ([0x01, 0x03, 0x40, 0x20] : List Byte).length = ([0x01, 0x03, 0x40, 0x21] : List Byte).length ∧
    ([0x01, 0x03, 0x40, 0x20] : List Byte)[3]? ≠ ([0x01, 0x03, 0x40, 0x21] : List Byte)[3]? ∧
    ∀ j, j ≠ 3 → ([0x01, 0x03, 0x40, 0x20] : List Byte)[j]? = ([0x01, 0x03, 0x40, 0x21] : List Byte)[j]? := by
  refine ⟨by decide +kernel, rfl, by decide, fun j hj => ?_⟩
  match j with
  | 0 => rfl
  | 1 => rfl
  | 2 => rfl
  | 3 => exact absurd rfl hj
  | _ + 4 => rfl

/-- A stream with a write and a read of other cells, a `NOP` and a refused word inside it. -/
def mixedStream : List Event := [cmd (.crcByte 0x01), wr addrAddr 0x0100, rd crcAddr, cmd .nop, issue 0x4000]

theorem witness_StreamComputesChecksum :
    (issued [cmd .crcInit, cmd (.crcByte 0x01)]).pending = cmd .crcInit :: [0x01].map (fun b => cmd (.crcByte b)) ∧
    (issued (cmd .crcInit :: mixedStream)).pending = cmd .crcInit :: (mixedStream ++ []) ∧
    (∀ e ∈ mixedStream, streamEvent e = true) ∧ reaches (run 6 (issued (cmd .crcInit :: mixedStream))) fun _ => true := by
  decide +kernel

theorem witness_ChecksumProgramReturnsChecksum (bs : List Byte) : (issued (checksumProgram bs)).pending = checksumProgram bs := rfl

/-- The longest payload of a frame, which `encode` accepts, and the longest that fits the notation, which it refuses. -/
theorem witness_EncodeProgramRealisesEncode :
    (∃ frame, (issued (encodeProgram 0xF7 0x10 longest)).pending = encodeProgram 0xF7 0x10 longest ∧ longest.length ≤ 254 ∧
      frameEncode (0xF7 : Byte).toNat 0x10 longest = .ok frame) ∧
    (∃ e, (issued (encodeProgram 0xF7 0x10 (zeros 254))).pending = encodeProgram 0xF7 0x10 (zeros 254) ∧ (zeros 254).length ≤ 254 ∧
      frameEncode (0xF7 : Byte).toNat 0x10 (zeros 254) = .error e) := by
  have hz : (zeros 254).length = 254 := List.length_replicate
  exact ⟨⟨_, rfl, by rw [longest_length]; decide, if_neg (by rw [longest_length]; decide)⟩,
    ⟨_, rfl, by rw [hz], if_pos (by rw [hz]; decide)⟩⟩

/-- 256 bytes that `decode` accepts, and 3 that it refuses. -/
theorem witness_DecodeProgramRealisesDecode :
    (∃ f, (issued (decodeProgram (framed 0xF7 0x10 longest))).pending = decodeProgram (framed 0xF7 0x10 longest) ∧
      (framed 0xF7 0x10 longest).length ≤ 256 ∧ frameDecode (framed 0xF7 0x10 longest) = .ok f) ∧
    (∃ e, (issued (decodeProgram (zeros 3))).pending = decodeProgram (zeros 3) ∧ (zeros 3).length ≤ 256 ∧
      frameDecode (zeros 3) = .error e) :=
  ⟨⟨_, rfl, by rw [framed_length, longest_length], framed_decodes _ _ _⟩, ⟨.truncatedFrameError, rfl, by decide, rfl⟩⟩

end Sys2Proof.Tests
end

section
/-! PROOF. The command decoder and the encoder, each in terms of the other (spec/30_encoding.md R58 to R61). -/

namespace Sys2Proof.Machine

/-- A word is its opcode byte above its `imm8` (R58). -/
theorem word_eq_opcode_imm (w : Word) : w = joinBytes (opcodeField w) (immField w) := (joinBytes_split w).symm

@[simp] theorem opcodeField_joinBytes (op imm8 : Byte) : opcodeField (joinBytes op imm8) = op := highByte_joinBytes op imm8

@[simp] theorem immField_joinBytes (op imm8 : Byte) : immField (joinBytes op imm8) = imm8 := lowByte_joinBytes op imm8

/-- The word of `CRC.BYTE` in the fields of R58. -/
theorem encode_crcByte (imm8 : Byte) : encode (.crcByte imm8) = joinBytes 0x02 imm8 := by
  apply BitVec.eq_of_getLsbD_eq
  intro j hj
  rw [getLsbD_joinBytes, encode, BitVec.getLsbD_or, BitVec.getLsbD_setWidth]
  interval_cases j <;> simp

@[simp] theorem decodeBare_ok_iff (w : Word) (i j : Instr) : decodeBare w i = .ok j ↔ immField w = 0 ∧ i = j := by
  unfold decodeBare
  split_ifs with h
  · simp [h]
  · exact iff_of_false (by simp) fun hj => h hj.1

/-- No bit of an accepted word is dropped: encoding the command gives the word back (R58 to R60). -/
theorem encode_of_decode {w : Word} {i : Instr} (h : decode w = .ok i) : encode i = w := by
  have bare : ∀ (op : Byte) (j : Instr), (opcodeField w).toNat = op.toNat → encode j = joinBytes op 0 →
      decodeBare w j = .ok i → encode i = w := by
    intro op j hop hj hd
    obtain ⟨himm, rfl⟩ := (decodeBare_ok_iff ..).1 hd
    rw [hj, word_eq_opcode_imm w, BitVec.eq_of_toNat_eq hop, himm]
  unfold decode at h
  split at h
  · exact bare 0x00 .nop ‹_› rfl h
  · exact bare 0x01 .crcInit ‹_› rfl h
  · rename_i hop
    obtain rfl : .crcByte (immField w) = i := by simpa using h
    have hop : opcodeField w = 0x02 := BitVec.eq_of_toNat_eq hop
    rw [encode_crcByte, ← hop, ← word_eq_opcode_imm]
  · exact bare 0x10 .enc ‹_› rfl h
  · exact bare 0x20 .dec ‹_› rfl h
  · exact bare 0x30 .clr ‹_› rfl h
  · cases h

/-- Every command word decodes to its command (R60). -/
@[simp] theorem decode_encode (i : Instr) : decode (encode i) = .ok i := by
  cases i with
  | crcByte imm8 => simp [encode_crcByte, decode]
  | nop => rfl
  | crcInit => rfl
  | enc => rfl
  | dec => rfl
  | clr => rfl

/-- The row of `CRC.BYTE` fixes the opcode byte alone (R60). -/
theorem opcodeField_of_crcByte_row {w : Word} (h : w &&& 0xFF00 = 0x0200) : opcodeField w = 0x02 := by
  have hop := congrArg opcodeField h
  rw [opcodeField, BitVec.extractLsb'_and, show BitVec.extractLsb' 8 8 (0xFF00 : Word) = BitVec.allOnes 8 from rfl,
    BitVec.and_allOnes] at hop
  exact hop

/-- A well-formed word is the word of a command (R60, R61). -/
theorem commandWordWellFormed_iff (w : Word) : commandWordWellFormed w = true ↔ ∃ i, encode i = w := by
  constructor
  · intro h
    have bare : w &&& 0xFFFF = w := BitVec.and_allOnes
    simp only [commandWordWellFormed, opcodeMap, Instr.row, OpcodeRow.selects, List.any_cons, List.any_nil, Bool.or_false,
      Bool.or_eq_true, beq_iff_eq, bare] at h
    rcases h with rfl | rfl | h | rfl | rfl | rfl
    · exact ⟨.nop, rfl⟩
    · exact ⟨.crcInit, rfl⟩
    · refine ⟨.crcByte (immField w), ?_⟩
      rw [encode_crcByte, ← opcodeField_of_crcByte_row h, ← word_eq_opcode_imm]
    · exact ⟨.enc, rfl⟩
    · exact ⟨.dec, rfl⟩
    · exact ⟨.clr, rfl⟩
  · rintro ⟨i, rfl⟩
    refine List.any_eq_true.2 ⟨i.row, ?_, ?_⟩
    · cases i <;> simp [opcodeMap, Instr.row]
    · cases i with
      | nop => exact Laws.EncodeMatchesRow.nop
      | crcInit => exact Laws.EncodeMatchesRow.crcInit
      | crcByte imm8 => exact Laws.EncodeMatchesRow.crcByte imm8
      | enc => exact Laws.EncodeMatchesRow.enc
      | dec => exact Laws.EncodeMatchesRow.dec
      | clr => exact Laws.EncodeMatchesRow.clr

end Sys2Proof.Machine
end

section
/-! PROOF. Everything a transaction and a command can do, said once; later proofs start from these inversion lemmas (spec/20_memory.md
R33 to R35, spec/10_state.md R18). -/

namespace Sys2Proof.Machine

/-! ## Host transactions -/

/-- What an accepted host write to a cell other than `CMD` does: it stores in that one cell (R34). -/
inductive HostStore (s : State) : State → Prop where
  | addr (b : Byte) : HostStore s (s.setAddr b)
  | fc (b : Byte) : HostStore s (s.setFc b)
  | plen (l : Length) : HostStore s (s.setPlen l)
  | flen (l : Length) : HostStore s (s.setFlen l)
  | buf (k : Nat) (b : Byte) (hk : k < 256) : HostStore s (s.store k b)

theorem HostStore.status_eq {s t : State} (h : HostStore s t) : t.status = s.status := by cases h <;> rfl

theorem HostStore.crc_eq {s t : State} (h : HostStore s t) : t.crc = s.crc := by cases h <;> rfl

theorem HostStore.buf_wf {s t : State} (h : HostStore s t) (hs : Memory.wf s.buf) : Memory.wf t.buf := by
  cases h with
  | buf k b hk => exact put_wf s.buf k b hk hs
  | addr b => exact hs
  | fc b => exact hs
  | plen l => exact hs
  | flen l => exact hs

/-- A byte cell takes the values that fit a byte and refuses the others (R34, R35). -/
theorem writeByte_refused_or_stored {s : State} {put : Byte → State} {v : Word} {refused : Bool}
    (hput : ∀ b, HostStore s (put b)) (hr : refused = decide (0x00FF < v.toNat)) :
    (refused = true ∧ writeByte v s put = refuse s) ∨ (refused = false ∧ HostStore s (writeByte v s put)) := by
  subst hr
  by_cases hv : 0x00FF < v.toNat
  · exact .inl ⟨decide_eq_true hv, writeByte_refused v s put hv⟩
  · obtain ⟨b, -, h⟩ := (writeByte_cases v s put).resolve_right fun h => hv h.1
    exact .inr ⟨decide_eq_false hv, h ▸ hput b⟩

/-- A length cell takes the values that fit 9 bits and refuses the others (R34, R35). -/
theorem writeLength_refused_or_stored {s : State} {put : Length → State} {v : Word} {refused : Bool}
    (hput : ∀ l, HostStore s (put l)) (hr : refused = decide (0x01FF < v.toNat)) :
    (refused = true ∧ writeLength v s put = refuse s) ∨ (refused = false ∧ HostStore s (writeLength v s put)) := by
  subst hr
  by_cases hv : 0x01FF < v.toNat
  · exact .inl ⟨decide_eq_true hv, writeLength_refused v s put hv⟩
  · obtain ⟨l, -, h⟩ := (writeLength_cases v s put).resolve_right fun h => hv h.1
    exact .inr ⟨decide_eq_false hv, h ▸ hput l⟩

/-- Everything a write to a cell other than `CMD` can do: it is refused exactly when R35 lists it, else it stores. -/
theorem hostWrite_of_ne_cmd {a : CellAddr} (v : Word) (s : State) (ha : a ≠ 0x000) :
    ∃ t, hostWrite a v s = .next t ∧
      ((refusedEvent (.write a v) = true ∧ t = refuse s) ∨ (refusedEvent (.write a v) = false ∧ HostStore s t)) := by
  rcases cellOf_cases a with ⟨rfl, -⟩ | ⟨rfl, -⟩ | ⟨rfl, -⟩ | ⟨rfl, -⟩ | ⟨rfl, -⟩ | ⟨rfl, -⟩ | ⟨rfl, -⟩ |
    ⟨hlo, hhi, hc⟩ | ⟨k, hk, hak, hc⟩
  · exact absurd rfl ha
  · exact ⟨_, rfl, .inl ⟨by simp [refusedEvent], rfl⟩⟩
  · exact ⟨_, rfl, .inl ⟨by simp [refusedEvent], rfl⟩⟩
  · exact ⟨_, rfl, writeByte_refused_or_stored HostStore.addr (by simp [refusedEvent])⟩
  · exact ⟨_, rfl, writeByte_refused_or_stored HostStore.fc (by simp [refusedEvent])⟩
  · exact ⟨_, rfl, writeLength_refused_or_stored HostStore.plen (by simp [refusedEvent])⟩
  · exact ⟨_, rfl, writeLength_refused_or_stored HostStore.flen (by simp [refusedEvent])⟩
  · exact ⟨refuse s, by simp [hostWrite, hc], .inl ⟨by simp [refusedEvent, hlo, hhi], rfl⟩⟩
  · have hr : refusedEvent (.write a v) = decide (0x00FF < v.toNat) := by
      rw [Bool.eq_iff_iff]
      simp [refusedEvent, hak]
      omega
    exact ⟨writeByte v s (s.store k), by simp [hostWrite, hc],
      writeByte_refused_or_stored (fun b => .buf k b hk) hr⟩

/-- Everything a read can do: it is refused exactly when R35 lists it; else it returns a value and changes nothing, or it meets an
unwritten cell (R33, R24). -/
theorem hostRead_cases (a : CellAddr) (s : State) :
    (refusedEvent (.read a) = true ∧ hostRead a s = .next ((refuse s).answer 0x0000)) ∨
    (refusedEvent (.read a) = false ∧
      ((∃ v, hostRead a s = .next (s.answer v)) ∨
        ∃ k, Memory.get s.buf k = none ∧ hostRead a s = .fault (.undefinedRead k))) := by
  rcases cellOf_cases a with ⟨rfl, -⟩ | ⟨rfl, -⟩ | ⟨rfl, -⟩ | ⟨rfl, -⟩ | ⟨rfl, -⟩ | ⟨rfl, -⟩ | ⟨rfl, -⟩ |
    ⟨hlo, hhi, hc⟩ | ⟨k, -, hak, hc⟩
  iterate 7 exact .inr ⟨rfl, .inl ⟨_, rfl⟩⟩
  · exact .inl ⟨by simp [refusedEvent, hlo, hhi], by simp [hostRead, hc]⟩
  · have hr : refusedEvent (.read a) = false := by
      simp [refusedEvent, hak]
      omega
    refine .inr ⟨hr, ?_⟩
    cases hk : Memory.get s.buf k with
    | some b => exact .inl ⟨zextByte b, by simp [hostRead, hc, loadByte, hk]⟩
    | none => exact .inr ⟨k, hk, by simp [hostRead, hc, loadByte, hk]⟩

/-- The only two states a read can leave. -/
theorem hostRead_next_cases {a : CellAddr} {s t : State} (h : hostRead a s = .next t) :
    (refusedEvent (.read a) = true ∧ t = (refuse s).answer 0x0000) ∨
    (refusedEvent (.read a) = false ∧ ∃ v, t = s.answer v) := by
  rcases hostRead_cases a s with ⟨hr, e⟩ | ⟨hr, ⟨v, e⟩ | ⟨k, -, e⟩⟩ <;> rw [e] at h
  · exact .inl ⟨hr, (Host.Outcome.next.inj h).symm⟩
  · exact .inr ⟨hr, v, (Host.Outcome.next.inj h).symm⟩
  · cases h

/-- Everything a write to `CMD` can do: run the command of its word, or refuse a word that is no command's (R18, R61). -/
theorem command_cases (w : Word) (s : State) :
    (∃ i, encode i = w ∧ command w s = exec i s) ∨ ((∀ i, encode i ≠ w) ∧ command w s = .next (refuse s)) := by
  cases h : decode w with
  | ok i => exact .inl ⟨i, encode_of_decode h, by simp [command, h]⟩
  | error r =>
    refine .inr ⟨?_, by simp [command, h]⟩
    rintro i rfl
    simp at h

/-- A write to `CMD` is refused exactly when its word is no command's (R35 (f)). -/
theorem refusedEvent_cmd_iff (w : Word) : refusedEvent (.write 0x000 w) = true ↔ ∀ i, encode i ≠ w := by
  rw [← not_exists, ← commandWordWellFormed_iff]
  simp [refusedEvent]

/-- Everything a write can do: run the command whose word it puts into `CMD`, be refused, or store (R18, R34, R35). -/
theorem hostWrite_cases (a : CellAddr) (v : Word) (s : State) :
    (refusedEvent (.write a v) = false ∧
      ∃ i, Event.write a v = .write 0x000 (encode i) ∧ hostWrite a v s = exec i s) ∨
    (refusedEvent (.write a v) = true ∧ hostWrite a v s = .next (refuse s)) ∨
    (refusedEvent (.write a v) = false ∧ ∃ t, HostStore s t ∧ hostWrite a v s = .next t) := by
  by_cases ha : a = 0x000
  · subst ha
    rcases command_cases v s with ⟨i, rfl, e⟩ | ⟨hi, e⟩
    · refine .inl ⟨?_, i, rfl, e⟩
      rw [Bool.eq_false_iff, Ne, refusedEvent_cmd_iff]
      exact fun hi => hi i rfl
    · exact .inr (.inl ⟨(refusedEvent_cmd_iff v).2 hi, e⟩)
  · obtain ⟨t, e, ⟨hr, rfl⟩ | ⟨hr, ht⟩⟩ := hostWrite_of_ne_cmd v s ha
    · exact .inr (.inl ⟨hr, e⟩)
    · exact .inr (.inr ⟨hr, t, ht, e⟩)

/-- The states a write can leave. -/
theorem hostWrite_next_cases {a : CellAddr} {v : Word} {s t : State} (h : hostWrite a v s = .next t) :
    (refusedEvent (.write a v) = false ∧
      ∃ i, Event.write a v = .write 0x000 (encode i) ∧ exec i s = .next t) ∨
    (refusedEvent (.write a v) = true ∧ t = refuse s) ∨
    (refusedEvent (.write a v) = false ∧ HostStore s t) := by
  rcases hostWrite_cases a v s with ⟨hr, i, hi, e⟩ | ⟨hr, e⟩ | ⟨hr, u, hu, e⟩ <;> rw [e] at h
  · exact .inl ⟨hr, i, hi, h⟩
  · exact .inr (.inl ⟨hr, (Host.Outcome.next.inj h).symm⟩)
  · exact .inr (.inr ⟨hr, Host.Outcome.next.inj h ▸ hu⟩)

/-- `CLR` and reset leave `STATUS` at 0x0000 (R25, R101). -/
theorem status_of_clr_or_reset {e : Event} {s t : State} (he : e = .write 0x000 (encode .clr) ∨ e = .reset)
    (h : serve e s = .next t) : t.status = 0x0000 := by
  rcases he with rfl | rfl <;> obtain rfl := Host.Outcome.next.inj h <;> rfl

/-- The fields of `STATUS` when it is 0x0000 (R19). -/
theorem fields_of_status_zero {s : State} (h : s.status = 0x0000) : s.last = 0 ∧ s.err = 0 ∧ s.accErr = false := by
  rw [State.last, State.err, State.accErr, h]
  decide

/-! ## Commands -/

/-- The only two states `ENC` can leave, each with its cause (R83, R84). -/
theorem execEnc_next_cases {s t : State} (h : execEnc s = .next t) :
    ((247 < s.addr.toNat ∨ 252 < s.plen.toNat) ∧ t = raise .encodingError .enc s) ∨
    (s.addr.toNat ≤ 247 ∧ s.plen.toNat ≤ 252 ∧
      ∃ p : List Byte, p.length = s.plen.toNat ∧ holds s.buf 2 p ∧ t = encDone s p) := by
  rcases execEnc_cases s with ⟨hf, e⟩ | ⟨ha, hp, p, hl, hh, e⟩ | ⟨-, -, i, -, -, -, e⟩ <;> rw [e] at h
  · exact .inl ⟨hf, by simpa [eq_comm] using h⟩
  · exact .inr ⟨ha, hp, p, hl, hh, by simpa [eq_comm] using h⟩
  · cases h

/-- The only four states `DEC` can leave, each with its cause (R93, R95). -/
theorem execDec_next_cases {s t : State} (h : execDec s = .next t) :
    (256 < s.flen.toNat ∧ t = raise .overlengthError .dec s) ∨
    (s.flen.toNat < 4 ∧ t = raise .truncatedFrameError .dec s) ∨
    (4 ≤ s.flen.toNat ∧ s.flen.toNat ≤ 256 ∧ ∃ (a f lo hi : Byte) (p : List Byte), p.length + 4 = s.flen.toNat ∧
      holds s.buf 0 ([a, f] ++ p ++ [lo, hi]) ∧
      ((crc16 ([a, f] ++ p) ≠ joinBytes hi lo ∧ t = raise .checksumError .dec (s.setCrc (crc16 ([a, f] ++ p)))) ∨
        (crc16 ([a, f] ++ p) = joinBytes hi lo ∧ t = decDone s a f p))) := by
  rcases execDec_cases s with ⟨hl, e⟩ | ⟨hl, e⟩ | ⟨-, -, i, -, -, -, e⟩ | ⟨h4, h256, a, f, lo, hi, p, hp, hh, e⟩
  · rw [e] at h
    exact .inl ⟨hl, by simpa [eq_comm] using h⟩
  · rw [e] at h
    exact .inr (.inl ⟨hl, by simpa [eq_comm] using h⟩)
  · rw [e] at h
    cases h
  · refine .inr (.inr ⟨h4, h256, a, f, lo, hi, p, hp, hh, ?_⟩)
    rcases e with ⟨hc, e⟩ | ⟨hc, e⟩ <;> rw [e] at h
    · exact .inl ⟨hc, by simpa [eq_comm] using h⟩
    · exact .inr ⟨hc, by simpa [eq_comm] using h⟩

/-! The fields of the states that a successful codec command leaves. -/

section
variable (s : State) (a f : Byte) (p : List Byte)

/-- The four stores of a successful `ENC` (R44, R83). -/
theorem encDone_buf :
    (encDone s p).buf =
      Memory.put (Memory.put (Memory.put (Memory.put s.buf 0 s.addr) 1 s.fc)
        (encChecksumOffset s) (lowByte (crc16 ([s.addr, s.fc] ++ p))))
        (encChecksumOffset s + 1) (highByte (crc16 ([s.addr, s.fc] ++ p))) := rfl

@[simp] theorem encDone_err : (encDone s p).err = 0 := err_succeed _ _
@[simp] theorem encDone_last : (encDone s p).last = 1 := last_succeed _ _
@[simp] theorem encDone_accErr : (encDone s p).accErr = s.accErr := accErr_succeed _ _
@[simp] theorem decDone_err : (decDone s a f p).err = 0 := err_succeed _ _
@[simp] theorem decDone_last : (decDone s a f p).last = 2 := last_succeed _ _
@[simp] theorem decDone_accErr : (decDone s a f p).accErr = s.accErr := accErr_succeed _ _

end

/-- Every command but the codec commands and `CLR` keeps `STATUS` (R75, R76, R100). -/
theorem exec_status_eq {i : Instr} {s t : State} (h : exec i s = .next t) (he : i ≠ .enc) (hd : i ≠ .dec) (hc : i ≠ .clr) :
    t.status = s.status := by
  cases i with
  | nop | crcInit | crcByte imm8 =>
    obtain rfl := Host.Outcome.next.inj h
    rfl
  | enc => exact absurd rfl he
  | dec => exact absurd rfl hd
  | clr => exact absurd rfl hc

/-- After `ENC`, `LAST` names it and `ERR` is 0 or the code of its one error (R20). -/
theorem execEnc_outcome {s t : State} (h : execEnc s = .next t) : t.last = 1 ∧ (t.err = 0 ∨ t.err = 1) := by
  rcases execEnc_next_cases h with ⟨-, rfl⟩ | ⟨-, -, p, -, -, rfl⟩ <;> simp [errCode, lastCode]

/-- After `DEC`, `LAST` names it and `ERR` is 0 or the code of one of its three errors (R20). -/
theorem execDec_outcome {s t : State} (h : execDec s = .next t) :
    t.last = 2 ∧ (t.err = 0 ∨ t.err = 2 ∨ t.err = 3 ∨ t.err = 4) := by
  rcases execDec_next_cases h with ⟨-, rfl⟩ | ⟨-, rfl⟩ | ⟨-, -, a, f, lo, hi, p, -, -, ⟨-, rfl⟩ | ⟨-, rfl⟩⟩ <;>
    simp [errCode, lastCode]

/-- No command but `CLR` touches `ACCERR` (R22). -/
theorem exec_accErr {i : Instr} {s t : State} (h : exec i s = .next t) (hc : i ≠ .clr) : t.accErr = s.accErr := by
  cases i with
  | nop | crcInit | crcByte imm8 =>
    obtain rfl := Host.Outcome.next.inj h
    rfl
  | enc => rcases execEnc_next_cases h with ⟨-, rfl⟩ | ⟨-, -, p, -, -, rfl⟩ <;> simp
  | dec =>
    rcases execDec_next_cases h with ⟨-, rfl⟩ | ⟨-, rfl⟩ | ⟨-, -, a, f, lo, hi, p, -, -, ⟨-, rfl⟩ | ⟨-, rfl⟩⟩ <;> simp
  | clr => exact absurd rfl hc

end Sys2Proof.Machine
end

section
/-! PROOF. Every step keeps the invariant (spec/10_state.md R19, R21, R23), and what the invariant says of `STATUS`. -/

namespace Sys2Proof.Machine

/-- The invariant speaks of `BUF` and `STATUS` only. -/
theorem State.Inv.of_status_eq {s t : State} (hs : s.Inv) (hb : Memory.wf t.buf) (hst : t.status = s.status) : t.Inv := by
  obtain ⟨-, hres, hpair⟩ := hs
  refine ⟨hb, hst ▸ hres, ?_⟩
  rwa [State.last, State.err, hst]

/-- Setting `ACCERR` touches neither the reserved bits nor the outcome fields (R22). -/
theorem State.Inv.refuse {s : State} (hs : s.Inv) : (refuse s).Inv := by
  obtain ⟨hb, hres, hpair⟩ := hs
  exact ⟨hb, by simpa using hres, by simpa using hpair⟩

/-- Writing an outcome that occurs keeps the invariant (R20, R21). -/
theorem State.Inv.of_withOutcome {s t : State} {err : BitVec 3} {last : BitVec 2} (hs : s.Inv) (hb : Memory.wf t.buf)
    (hst : t.status = withOutcome s.status err last) (hp : (last, err) ∈ legalPairs) : t.Inv := by
  obtain ⟨-, hres, -⟩ := hs
  refine ⟨hb, by rw [hst, reserved_withOutcome, hres], ?_⟩
  rwa [State.last, State.err, hst, lastField_withOutcome, errField_withOutcome]

/-- Every store of a successful `ENC` is to a cell below 256 (R83). -/
theorem encDone_buf_wf {s : State} (p : List Byte) (hp : s.plen.toNat ≤ 252) (hb : Memory.wf s.buf) :
    Memory.wf (encDone s p).buf := by
  have hoff : encChecksumOffset s + 1 < 256 := by
    rw [encChecksumOffset]
    omega
  rw [encDone_buf]
  exact put_wf _ _ _ hoff (put_wf _ _ _ (by omega) (put_wf _ _ _ (by omega) (put_wf _ _ _ (by omega) hb)))

theorem reset_inv : State.reset.Inv := by decide

/-- Every command keeps the invariant. -/
theorem exec_inv {i : Instr} {s t : State} (hs : s.Inv) (h : exec i s = .next t) : t.Inv := by
  have hb : Memory.wf s.buf := hs.1
  cases i with
  | nop | crcInit | crcByte imm8 =>
    obtain rfl := Host.Outcome.next.inj h
    exact hs.of_status_eq hb rfl
  | enc =>
    rcases execEnc_next_cases h with ⟨-, rfl⟩ | ⟨-, hp, p, -, -, rfl⟩
    · exact hs.of_withOutcome hb rfl (by decide)
    · exact hs.of_withOutcome (encDone_buf_wf p hp hb) rfl (by decide)
  | dec =>
    rcases execDec_next_cases h with ⟨-, rfl⟩ | ⟨-, rfl⟩ | ⟨-, -, a, f, lo, hi, p, -, -, ⟨-, rfl⟩ | ⟨-, rfl⟩⟩ <;>
      exact hs.of_withOutcome hb rfl (by decide)
  | clr =>
    obtain rfl := Host.Outcome.next.inj h
    exact reset_inv.of_status_eq hb rfl

theorem hostRead_inv {a : CellAddr} {s t : State} (hs : s.Inv) (h : hostRead a s = .next t) : t.Inv := by
  rcases hostRead_next_cases h with ⟨-, rfl⟩ | ⟨-, v, rfl⟩
  · exact hs.refuse.of_status_eq hs.1 rfl
  · exact hs.of_status_eq hs.1 rfl

theorem hostWrite_inv {a : CellAddr} {v : Word} {s t : State} (hs : s.Inv) (h : hostWrite a v s = .next t) : t.Inv := by
  rcases hostWrite_next_cases h with ⟨-, i, -, hi⟩ | ⟨-, rfl⟩ | ⟨-, ht⟩
  · exact exec_inv hs hi
  · exact hs.refuse
  · exact hs.of_status_eq (ht.buf_wf hs.1) ht.status_eq

theorem hostReset_inv {s t : State} (h : hostReset s = .next t) : t.Inv := by
  obtain rfl := Host.Outcome.next.inj h
  exact reset_inv

theorem serve_inv {e : Event} {s t : State} (hs : s.Inv) (h : serve e s = .next t) : t.Inv := by
  cases e with
  | read a => exact hostRead_inv hs h
  | write a v => exact hostWrite_inv hs h
  | reset => exact hostReset_inv h

/-- Settles O34: every event keeps the invariant, case by case of what it can do. -/
theorem stepKeepsInvariant : Obligations.StepKeepsInvariant := by
  intro s t hs h
  cases hp : s.pending with
  | nil =>
    obtain rfl := Host.Outcome.next.inj ((step_idle s hp).symm.trans h)
    exact hs
  | cons e rest =>
    rw [step_event s e rest hp] at h
    exact serve_inv (s := s.setPending rest) (hs.of_status_eq hs.1 rfl) h

/-- Settles O33, by evaluating the reset state. -/
theorem resetMeetsInvariant : Obligations.ResetMeetsInvariant := reset_inv

/-- Settles O11: the reset state is a literal. -/
theorem resetValues : Obligations.ResetValues := by
  exact ⟨rfl, rfl, rfl, rfl, rfl, rfl, rfl, rfl, rfl, fun k => rfl⟩

/-- The word made of three fields, as a write of the outcome over the flag alone. -/
theorem fields_eq_withOutcome (err : BitVec 3) (last : BitVec 2) (accErr : Bool) :
    err.setWidth 16 ||| (last.setWidth 16 <<< 4) ||| (if accErr then 0x0080 else 0x0000) =
      withOutcome (if accErr then 0x0080 else 0x0000) err last := by
  have hflag : (if accErr then (0x0080 : Word) else 0x0000) &&& ~~~(0x0037 : Word) = if accErr then 0x0080 else 0x0000 := by
    cases accErr <;> rfl
  rw [withOutcome, hflag, BitVec.or_comm, BitVec.or_assoc]

/-- Settles O25: under the invariant the two words agree in every field and in the reserved bits. -/
theorem statusWordIsItsFields : Obligations.StatusWordIsItsFields := by
  rintro s ⟨-, hres, -⟩
  rw [fields_eq_withOutcome]
  apply status_ext
  · rw [errField_withOutcome]
    rfl
  · rw [lastField_withOutcome]
    rfl
  · rw [accErrBit_withOutcome]
    change s.accErr = _
    cases s.accErr <;> rfl
  · rw [reserved_withOutcome, hres]
    cases s.accErr <;> rfl

end Sys2Proof.Machine
end

section
/-! PROOF. Which events write `ERR`, `LAST`, `ACCERR` and `CRC`, and what a write to `CMD` runs (spec/10_state.md R13, R18, R20, R22). -/

namespace Sys2Proof.Machine

theorem step_write_cmd {s : State} {w : Word} {rest : List Event} (h : s.pending = .write 0x000 w :: rest) :
    step s = command w (s.setPending rest) := step_event s _ rest h

/-- Settles O1: by the decoder's answer on the written word. -/
theorem cmdWriteRunsSelectedCommand : Obligations.CmdWriteRunsSelectedCommand := by
  refine ⟨fun s rest w i hp hd => ?_, fun s rest w r hp hd => ?_, fun s rest hp => ?_⟩
  · rw [step_write_cmd hp, command, hd]
    rfl
  · rw [step_write_cmd hp, command, hd]
    rfl
  · rw [step_event s _ rest hp]
    rfl

/-- A table word of 16 bits is read as the word it stands for (R58). -/
theorem decode_of_decodeTableWord {w : Nat} {i : Instr} (h : decodeTableWord 16 w = some i) :
    decode (BitVec.ofNat 16 (w % 2 ^ 16)) = .ok i := by
  unfold decodeTableWord at h
  rw [if_pos (Nat.mod_lt _ (by norm_num))] at h
  cases hd : decode (BitVec.ofNat 16 (w % 2 ^ 16)) with
  | ok j =>
    rw [hd] at h
    exact congrArg Except.ok (Option.some.inj h)
  | error r =>
    rw [hd] at h
    cases h

/-- Settles O2: the placed transaction is a write of the word to `CMD`, so O1 says what it runs. -/
theorem fetchWordIsTheNextCommand : Obligations.FetchWordIsTheNextCommand := fun s w i h =>
  cmdWriteRunsSelectedCommand.1 (s.withFetchWord 16 w) s.pending _ i rfl (decode_of_decodeTableWord h)

/-! ## `ERR` and `LAST` -/

theorem hostRead_outcome_eq {a : CellAddr} {s t : State} (h : hostRead a s = .next t) : t.last = s.last ∧ t.err = s.err := by
  rcases hostRead_next_cases h with ⟨-, rfl⟩ | ⟨-, v, rfl⟩ <;> simp

/-- A write that runs no codec command and no `CLR` leaves the outcome fields. -/
theorem hostWrite_outcome_eq {a : CellAddr} {v : Word} {s t : State} (h : hostWrite a v s = .next t)
    (hcmd : ∀ i, Event.write a v = .write 0x000 (encode i) → i ≠ .enc ∧ i ≠ .dec ∧ i ≠ .clr) :
    t.last = s.last ∧ t.err = s.err := by
  have of_status : t.status = s.status → t.last = s.last ∧ t.err = s.err := fun ht => by
    simp [State.last, State.err, ht]
  rcases hostWrite_next_cases h with ⟨-, i, hi, hrun⟩ | ⟨-, rfl⟩ | ⟨-, ht⟩
  · obtain ⟨he, hd, hc⟩ := hcmd i hi
    exact of_status (exec_status_eq hrun he hd hc)
  · simp
  · exact of_status ht.status_eq

/-- Settles O23: the three commands and reset by what each leaves, every other event by the two frame lemmas above. -/
theorem outcomeWrittenByCodecCommandsOnly : Obligations.OutcomeWrittenByCodecCommandsOnly := by
  intro s t e rest hp h
  rw [step_event s e rest hp] at h
  refine ⟨?_, ?_, fun he => ?_, fun henc hdec hclr hreset => ?_⟩
  · rintro rfl
    exact execEnc_outcome h
  · rintro rfl
    exact execDec_outcome h
  · obtain ⟨hlast, herr, -⟩ := fields_of_status_zero (status_of_clr_or_reset he h)
    exact ⟨hlast, herr⟩
  · cases e with
    | read a => exact hostRead_outcome_eq (s := s.setPending rest) h
    | write a v =>
      refine hostWrite_outcome_eq (s := s.setPending rest) h fun i hi => ⟨?_, ?_, ?_⟩ <;> rintro rfl
      · exact henc hi
      · exact hdec hi
      · exact hclr hi
    | reset => exact absurd rfl hreset

/-! ## `ACCERR` -/

/-- A refused event takes a next state that differs in `ACCERR` only; a refused read also returns 0x0000 (R22, R35). -/
theorem serve_refused {e : Event} (s : State) (h : refusedEvent e = true) :
    (∃ a, e = .read a ∧ serve e s = .next ((refuse s).answer 0x0000)) ∨
      (∃ a v, e = .write a v ∧ serve e s = .next (refuse s)) := by
  cases e with
  | read a =>
    rcases hostRead_cases a s with ⟨-, e⟩ | ⟨hr, -⟩
    · exact .inl ⟨a, rfl, e⟩
    · simp [h] at hr
  | write a v =>
    rcases hostWrite_cases a v s with ⟨hr, -⟩ | ⟨-, e⟩ | ⟨hr, -⟩
    · simp [h] at hr
    · exact .inr ⟨a, v, rfl, e⟩
    · simp [h] at hr
  | reset => cases h

/-- An event that is not refused leaves `ACCERR`, unless it is `CLR` or reset (R22). -/
theorem serve_accErr_eq {e : Event} {s t : State} (hr : refusedEvent e = false) (h : serve e s = .next t)
    (hclr : e ≠ .write 0x000 (encode .clr)) (hreset : e ≠ .reset) : t.accErr = s.accErr := by
  cases e with
  | read a =>
    rcases hostRead_next_cases h with ⟨hr', -⟩ | ⟨-, v, rfl⟩
    · simp [hr] at hr'
    · simp
  | write a v =>
    rcases hostWrite_next_cases h with ⟨-, i, hi, hrun⟩ | ⟨hr', -⟩ | ⟨-, ht⟩
    · refine exec_accErr hrun ?_
      rintro rfl
      exact hclr hi
    · simp [hr] at hr'
    · rw [State.accErr, ht.status_eq, State.accErr]
  | reset => exact absurd rfl hreset

/-- Settles O24, from what a refused event does and what the others leave. -/
theorem accErrSetByRefusalsOnly : Obligations.AccErrSetByRefusalsOnly := by
  intro s e rest hp
  rw [step_event s e rest hp]
  refine ⟨fun hr => ?_, fun t hr h => ⟨fun he => ?_, fun hclr hreset => ?_⟩⟩
  · rcases serve_refused (s.setPending rest) hr with ⟨a, rfl, e⟩ | ⟨a, v, rfl, e⟩ <;> exact e
  · obtain ⟨-, -, hacc⟩ := fields_of_status_zero (status_of_clr_or_reset he h)
    exact hacc
  · exact serve_accErr_eq (s := s.setPending rest) hr h hclr hreset

/-! ## `CRC` -/

theorem hostRead_crc_eq {a : CellAddr} {s t : State} (h : hostRead a s = .next t) : t.crc = s.crc := by
  rcases hostRead_next_cases h with ⟨-, rfl⟩ | ⟨-, v, rfl⟩ <;> simp

/-- A write that changes `CRC` is the write of a command word other than `NOP`. -/
theorem hostWrite_crc_ne {a : CellAddr} {v : Word} {s t : State} (h : hostWrite a v s = .next t) (hne : t.crc ≠ s.crc) :
    ∃ i, Event.write a v = .write 0x000 (encode i) ∧ i ≠ .nop := by
  rcases hostWrite_next_cases h with ⟨-, i, hi, hrun⟩ | ⟨-, rfl⟩ | ⟨-, ht⟩
  · refine ⟨i, hi, ?_⟩
    rintro rfl
    obtain rfl := Host.Outcome.next.inj hrun
    exact hne rfl
  · exact absurd rfl hne
  · exact absurd ht.crc_eq hne

/-- Settles O35: the events by the lemmas above, the failed codec commands by the states they can leave. -/
theorem crcWrittenByCommandsOnly : Obligations.CrcWrittenByCommandsOnly := by
  refine ⟨fun s t e rest hp h hne => ?_, fun s t h herr => ?_, fun s t h herr => ?_⟩
  · rw [step_event s e rest hp] at h
    cases e with
    | read a => exact absurd (hostRead_crc_eq (s := s.setPending rest) h) hne
    | write a v => exact .inr (hostWrite_crc_ne (s := s.setPending rest) h hne)
    | reset => exact .inl rfl
  · rcases execEnc_next_cases h with ⟨-, rfl⟩ | ⟨-, -, p, -, -, rfl⟩
    · simp
    · simp at herr
  · rcases execDec_next_cases h with ⟨-, rfl⟩ | ⟨-, rfl⟩ | ⟨-, -, a, f, lo, hi, p, -, -, ⟨-, rfl⟩ | ⟨-, rfl⟩⟩
    · simp
    · simp
    · simp [errCode] at herr
    · simp at herr

end Sys2Proof.Machine
end

section
/-! PROOF. The written marks, the unwritten cells that stop a command, and the host's side of the state (spec/10_state.md R10, R24). -/

namespace Sys2Proof.Machine

/-! ## Written marks -/

/-- A store sets the mark of its cell and no other (R24). -/
@[simp] theorem written_put (m : Memory) (k j : Nat) (b : Byte) :
    written (Memory.put m k b) j = (j == k || written m j) := by
  by_cases h : j = k <;> simp [written, h]

/-- A successful `ENC` sets the marks of the four cells it stores to. -/
theorem written_encDone (s : State) (p : List Byte) (j : Nat) :
    written (encDone s p).buf j =
      (decide (j ∈ [0, 1, encChecksumOffset s, encChecksumOffset s + 1]) || written s.buf j) := by
  rw [encDone_buf, Bool.eq_iff_iff]
  simp only [written_put, Bool.or_eq_true, beq_iff_eq, decide_eq_true_eq, List.mem_cons, List.not_mem_nil, or_false]
  tauto

/-- Settles O29: reset, `CLR`, an accepted host write and `ENC`, each from the buffer it leaves. -/
theorem writtenMarksFollowWrites : Obligations.WrittenMarksFollowWrites := by
  refine ⟨fun s t k h => ?_, fun s t k h => ?_, fun s k b rest hk hp => ?_, fun s t h j => ?_⟩
  · obtain rfl := Host.Outcome.next.inj h
    rfl
  · obtain rfl := Host.Outcome.next.inj h
    rfl
  · refine ⟨(s.setPending rest).store k b, ?_, fun j => written_put s.buf k j b⟩
    rw [step_event s _ rest hp]
    change hostWrite (bufAddr k) (zextByte b) (s.setPending rest) = _
    rw [hostWrite, cellOf_bufAddr k hk]
    simp only [writeByte_fits]
  · rcases execEnc_next_cases h with ⟨hf, rfl⟩ | ⟨ha, hp, p, -, -, rfl⟩
    · rw [encStores, if_pos ((encodingFails_iff s).2 hf)]
      simp
    · have hs : ¬ encodingFails s = true := by
        rw [encodingFails_iff]
        omega
      rw [encStores, if_neg hs, written_encDone]

/-! ## Unwritten cells -/

theorem unwrittenIn_iff (m : Memory) (k n : Nat) : unwrittenIn m k n = true ↔ ∃ i < n, Memory.get m (k + i) = none := by
  simp [unwrittenIn, written]

theorem unwrittenIn_of_holds {m : Memory} {k : Nat} {bs : List Byte} (h : holds m k bs) :
    unwrittenIn m k bs.length = false := by
  rw [Bool.eq_false_iff, Ne, unwrittenIn_iff]
  rintro ⟨i, hi, hn⟩
  rw [h i hi, List.getElem?_eq_getElem hi] at hn
  cases hn

theorem written_eq_false_iff (m : Memory) (k : Nat) : written m k = false ↔ Memory.get m k = none := by
  simp [written]

/-- `ENC` stops exactly when its payload has an unwritten cell that it would read, and names one (R24, R83). -/
theorem execEnc_completes (s : State) :
    (undefinedCommand .enc s = false ∧ ∃ t, execEnc s = .next t) ∨
    (undefinedCommand .enc s = true ∧ ∃ k, execEnc s = .fault (.undefinedRead k) ∧ written s.buf k = false) := by
  rcases execEnc_cases s with ⟨hf, e⟩ | ⟨-, -, p, hl, hh, e⟩ | ⟨ha, hp, i, hi, hn, -, e⟩
  · refine .inl ⟨?_, _, e⟩
    have : ¬ (s.addr.toNat ≤ 247 ∧ s.plen.toNat ≤ 252) := by omega
    simp only [undefinedCommand, Bool.and_eq_false_iff, decide_eq_false_iff_not]
    tauto
  · refine .inl ⟨?_, _, e⟩
    simp [undefinedCommand, ← hl, unwrittenIn_of_holds hh]
  · refine .inr ⟨?_, _, e, (written_eq_false_iff ..).2 hn⟩
    simp only [undefinedCommand, Bool.and_eq_true, decide_eq_true_eq]
    exact ⟨⟨ha, hp⟩, (unwrittenIn_iff ..).2 ⟨i, hi, hn⟩⟩

/-- `DEC` stops exactly when its raw bytes have an unwritten cell that it would read, and names one (R24, R93). -/
theorem execDec_completes (s : State) :
    (undefinedCommand .dec s = false ∧ ∃ t, execDec s = .next t) ∨
    (undefinedCommand .dec s = true ∧ ∃ k, execDec s = .fault (.undefinedRead k) ∧ written s.buf k = false) := by
  rcases execDec_cases s with ⟨hl, e⟩ | ⟨hl, e⟩ | ⟨h4, h256, i, hi, hn, -, e⟩ | ⟨-, -, a, f, lo, hi, p, hp, hh, e⟩
  · refine .inl ⟨?_, _, e⟩
    simp [undefinedCommand, hl]
  · refine .inl ⟨?_, _, e⟩
    simp [undefinedCommand, hl]
  · refine .inr ⟨?_, _, e, (written_eq_false_iff ..).2 hn⟩
    simp only [undefinedCommand, Bool.and_eq_true, decide_eq_true_eq]
    exact ⟨⟨h4, h256⟩, (unwrittenIn_iff ..).2 ⟨i, hi, by rwa [Nat.zero_add]⟩⟩
  · refine .inl ⟨?_, ?_⟩
    · have hl : s.flen.toNat = ([a, f] ++ p ++ [lo, hi]).length := by simp [← hp]
      rw [undefinedCommand, hl, unwrittenIn_of_holds hh, Bool.and_false]
    · rcases e with ⟨-, e⟩ | ⟨-, e⟩ <;> exact ⟨_, e⟩

/-- Settles O30: `ENC` and `DEC` alone read `BUF`. -/
theorem commandCompletesUnlessUndefinedRead : Obligations.CommandCompletesUnlessUndefinedRead := by
  intro i s
  cases i with
  | nop | crcInit | crcByte imm8 | clr => exact ⟨fun _ => ⟨_, rfl⟩, fun h => nomatch h⟩
  | enc =>
    rcases execEnc_completes s with ⟨hu, h⟩ | ⟨hu, h⟩
    · exact ⟨fun _ => h, fun hu' => by simp [hu] at hu'⟩
    · exact ⟨fun hu' => by simp [hu] at hu', fun _ => h⟩
  | dec =>
    rcases execDec_completes s with ⟨hu, h⟩ | ⟨hu, h⟩
    · exact ⟨fun _ => h, fun hu' => by simp [hu] at hu'⟩
    · exact ⟨fun hu' => by simp [hu] at hu', fun _ => h⟩

/-! ## The host's side -/

/-- The same block with another host's side: other events to come, other values returned (R10, R26). -/
def State.withHostSide (s : State) (p : List Event) (a : List Word) : State := { s with pending := p, answers := a }

/-- A change of the next state, with faults and refusals as they are. -/
def mapNext (f : State → State) : Host.Outcome State Fault Refusal → Host.Outcome State Fault Refusal
  | .next t    => .next (f t)
  | .fault e   => .fault e
  | .refused r => .refused r

section
variable (s : State) (p : List Event) (a : List Word)

@[simp] theorem withHostSide_plen : (s.withHostSide p a).plen = s.plen := rfl
@[simp] theorem withHostSide_flen : (s.withHostSide p a).flen = s.flen := rfl
@[simp] theorem withHostSide_buf : (s.withHostSide p a).buf = s.buf := rfl
@[simp] theorem withHostSide_pending : (s.withHostSide p a).pending = p := rfl
@[simp] theorem withHostSide_answers : (s.withHostSide p a).answers = a := rfl
@[simp] theorem encodingFails_withHostSide : encodingFails (s.withHostSide p a) = encodingFails s := rfl

/-- `ENC` looks at `ADDR`, `FC`, `PLEN` and `BUF`, so another host's side gives the same outcome. -/
theorem execEnc_withHostSide : execEnc (s.withHostSide p a) = mapNext (·.withHostSide p a) (execEnc s) := by
  rw [execEnc_eq, execEnc_eq, encodingFails_withHostSide, withHostSide_buf, withHostSide_plen]
  split_ifs
  · rfl
  · cases memRead s.buf 2 s.plen.toNat <;> rfl

/-- `DEC` looks at `FLEN` and `BUF`, so another host's side gives the same outcome. -/
theorem execDec_withHostSide : execDec (s.withHostSide p a) = mapNext (·.withHostSide p a) (execDec s) := by
  rw [execDec_eq, execDec_eq, withHostSide_buf, withHostSide_flen]
  split_ifs
  · rfl
  · rfl
  · cases memRead s.buf 0 s.flen.toNat with
    | error f => rfl
    | ok bs =>
      dsimp only
      cases frameDecode bs <;> rfl

/-- A command commutes with a change of the host's side. -/
theorem exec_withHostSide (i : Instr) : exec i (s.withHostSide p a) = mapNext (·.withHostSide p a) (exec i s) := by
  cases i with
  | nop | crcInit | crcByte imm8 | clr => rfl
  | enc => exact execEnc_withHostSide s p a
  | dec => exact execDec_withHostSide s p a

end

/-- Settles O37: by the commutation, for the given host's side and for the state's own. -/
theorem commandsIgnoreHostSide : Obligations.CommandsIgnoreHostSide := by
  intro i s p a
  refine ⟨fun t h => ⟨?_, ?_⟩, fun f h => ?_⟩
  · exact (exec_withHostSide s p a i).trans (by rw [h]; rfl)
  · have hown : exec i s = mapNext (·.withHostSide s.pending s.answers) (exec i s) :=
      exec_withHostSide s s.pending s.answers i
    rw [h] at hown
    have ht : t = t.withHostSide s.pending s.answers := Host.Outcome.next.inj hown
    rw [ht]
    exact ⟨withHostSide_pending .., withHostSide_answers ..⟩
  · exact (exec_withHostSide s p a i).trans (by rw [h]; rfl)

end Sys2Proof.Machine
end

section
/-! PROOF. What each host read returns and each host write does, cell by cell (spec/20_memory.md R30, R33, R34, R40). -/

namespace Sys2Proof.Machine

/-! ## The address map -/

/-- The addresses between the register cells and `BUF` are reserved (R30, R31). -/
theorem cellOf_of_reserved {a : CellAddr} (hlo : 0x007 ≤ a.toNat) (hhi : a.toNat ≤ 0x0FF) : cellOf a = .reserved := by
  rcases cellOf_cases a with ⟨rfl, -⟩ | ⟨rfl, -⟩ | ⟨rfl, -⟩ | ⟨rfl, -⟩ | ⟨rfl, -⟩ | ⟨rfl, -⟩ | ⟨rfl, -⟩ |
    ⟨-, -, hc⟩ | ⟨k, -, hak, -⟩
  iterate 7 exact absurd hlo (by decide)
  · exact hc
  · omega

/-- The addresses from 0x100 on are those of `BUF` (R30). -/
theorem cellOf_of_buf {a : CellAddr} {k : Nat} (ha : a.toNat = 0x100 + k) : cellOf a = .buf k := by
  have hlt : a.toNat < 512 := a.isLt
  have haddr : a = bufAddr k := by
    apply BitVec.eq_of_toNat_eq
    rw [ha, bufAddr, Config.bufBase, BitVec.toNat_ofNat, Nat.mod_eq_of_lt (by omega)]
  rw [haddr, cellOf_bufAddr k (by omega)]

/-! ## Reads -/

theorem hostRead_of_reserved {a : CellAddr} (s : State) (hc : cellOf a = .reserved) :
    hostRead a s = .next ((refuse s).answer 0x0000) := by
  simp [hostRead, hc]

theorem hostRead_of_written {a : CellAddr} {s : State} {k : Nat} {b : Byte} (hc : cellOf a = .buf k)
    (hb : Memory.get s.buf k = some b) : hostRead a s = .next (s.answer (zextByte b)) := by
  simp [hostRead, hc, loadByte, hb]

theorem hostRead_of_unwritten {a : CellAddr} {s : State} {k : Nat} (hc : cellOf a = .buf k)
    (hn : Memory.get s.buf k = none) : hostRead a s = .fault (.undefinedRead k) := by
  simp [hostRead, hc, loadByte, hn]

/-- Settles O26: the register cells by evaluation at their addresses, the two ranges by the address map. -/
theorem hostReadReturnsCell : Obligations.HostReadReturnsCell := by
  intro s a rest hp
  rw [step_event s _ rest hp]
  refine ⟨?_, ?_, ?_, ?_, ?_, ?_, ?_, fun hlo hhi => ?_, fun k b ha hb => ?_⟩
  iterate 7
    rintro rfl
    rfl
  · exact hostRead_of_reserved _ (cellOf_of_reserved hlo hhi)
  · exact hostRead_of_written (s := s.setPending rest) (cellOf_of_buf ha) hb

/-! ## Writes -/

/-- A byte cell stores the low byte of a value that fits, and refuses a wider one (R34). -/
theorem next_writeByte (v : Word) (s : State) (put : Byte → State) :
    (.next (writeByte v s put) : Host.Outcome State Fault Refusal) =
      if v ≤ 0x00FF then .next (put (v.setWidth 8)) else .next (refuse s) := by
  by_cases hv : v ≤ 0x00FF
  · have hfit : fitByte v = some (v.setWidth 8) := if_pos hv
    rw [if_pos hv, writeByte, hfit]
  · rw [if_neg hv, writeByte_refused v s put (Nat.lt_of_not_le hv)]

/-- A length cell stores the low 9 bits of a value that fits, and refuses a wider one (R34). -/
theorem next_writeLength (v : Word) (s : State) (put : Length → State) :
    (.next (writeLength v s put) : Host.Outcome State Fault Refusal) =
      if v ≤ 0x01FF then .next (put (v.setWidth 9)) else .next (refuse s) := by
  by_cases hv : v ≤ 0x01FF
  · have hfit : fitLength v = some (v.setWidth 9) := if_pos hv
    rw [if_pos hv, writeLength, hfit]
  · rw [if_neg hv, writeLength_refused v s put (Nat.lt_of_not_le hv)]

theorem hostWrite_of_reserved {a : CellAddr} (v : Word) (s : State) (hc : cellOf a = .reserved) :
    hostWrite a v s = .next (refuse s) := by
  simp [hostWrite, hc]

theorem hostWrite_of_buf {a : CellAddr} {k : Nat} (v : Word) (s : State) (hc : cellOf a = .buf k) :
    hostWrite a v s = .next (writeByte v s (s.store k)) := by
  simp [hostWrite, hc]

/-- Settles O27: `CMD` by the decoder's answer, each other cell by the width its value must fit. -/
theorem hostWriteStoresCell : Obligations.HostWriteStoresCell := by
  intro s a v rest hp
  rw [step_event s _ rest hp]
  refine ⟨?_, ?_, ?_, ?_, ?_, ?_, fun hlo hhi => ?_, fun k ha => ?_⟩
  · rintro rfl
    change command v (s.setPending rest) = _
    rw [command]
    cases decode v <;> rfl
  · rintro (rfl | rfl) <;> rfl
  · rintro rfl
    exact next_writeByte ..
  · rintro rfl
    exact next_writeByte ..
  · rintro rfl
    exact next_writeLength ..
  · rintro rfl
    exact next_writeLength ..
  · exact hostWrite_of_reserved v _ (cellOf_of_reserved hlo hhi)
  · rw [serve, hostWrite_of_buf v _ (cellOf_of_buf ha), next_writeByte]
    split_ifs
    · exact ⟨_, rfl, rfl, get_put_same .., fun j hj => get_put_other _ _ _ _ hj⟩
    · rfl

/-! ## A read after a write -/

theorem eq_zextByte_of_le {v : Word} (hv : v.toNat ≤ 0x00FF) : ∃ b, v = zextByte b :=
  ⟨v.setWidth 8, (fitByte_eq_some_iff ..).1 (if_pos hv)⟩

theorem eq_zextLength_of_le {v : Word} (hv : v.toNat ≤ 0x01FF) : ∃ l, v = zextLength l :=
  ⟨v.setWidth 9, (fitLength_eq_some_iff ..).1 (if_pos hv)⟩

/-- An accepted write to a cell other than `CMD` stores the value that a read of the cell then gives, whatever the host has
still to issue (R33, R34). -/
theorem hostRead_after_hostWrite {a : CellAddr} {v : Word} (s : State) (ha : a ≠ 0x000)
    (hr : refusedEvent (.write a v) = false) :
    ∃ t, hostWrite a v s = .next t ∧ HostStore s t ∧
      ∀ es, hostRead a (t.setPending es) = .next ((t.setPending es).answer v) := by
  rcases cellOf_cases a with ⟨rfl, -⟩ | ⟨rfl, -⟩ | ⟨rfl, -⟩ | ⟨rfl, -⟩ | ⟨rfl, -⟩ | ⟨rfl, -⟩ | ⟨rfl, -⟩ |
    ⟨hlo, hhi, -⟩ | ⟨k, hk, hak, hc⟩
  · exact absurd rfl ha
  · simp [refusedEvent] at hr
  · simp [refusedEvent] at hr
  · obtain ⟨b, rfl⟩ := eq_zextByte_of_le (v := v) (by simpa [refusedEvent] using hr)
    exact ⟨s.setAddr b, congrArg _ (writeByte_fits ..), .addr b, fun es => rfl⟩
  · obtain ⟨b, rfl⟩ := eq_zextByte_of_le (v := v) (by simpa [refusedEvent] using hr)
    exact ⟨s.setFc b, congrArg _ (writeByte_fits ..), .fc b, fun es => rfl⟩
  · obtain ⟨l, rfl⟩ := eq_zextLength_of_le (v := v) (by simpa [refusedEvent] using hr)
    exact ⟨s.setPlen l, congrArg _ (writeLength_fits ..), .plen l, fun es => rfl⟩
  · obtain ⟨l, rfl⟩ := eq_zextLength_of_le (v := v) (by simpa [refusedEvent] using hr)
    exact ⟨s.setFlen l, congrArg _ (writeLength_fits ..), .flen l, fun es => rfl⟩
  · simp [refusedEvent, hlo, hhi] at hr
  · have hbuf : 0x100 ≤ a.toNat := by omega
    have hv : v.toNat ≤ 0x00FF := by
      by_contra hv
      simp [refusedEvent, hbuf, Nat.lt_of_not_le hv] at hr
    obtain ⟨b, rfl⟩ := eq_zextByte_of_le hv
    refine ⟨s.store k b, ?_, .buf k b hk, fun es => hostRead_of_written hc (get_put_same ..)⟩
    rw [hostWrite_of_buf _ _ hc, writeByte_fits]

theorem HostStore.pending_eq {s t : State} (h : HostStore s t) : t.pending = s.pending := by cases h <;> rfl

theorem HostStore.answers_eq {s t : State} (h : HostStore s t) : t.answers = s.answers := by cases h <;> rfl

/-- Settles O28: one step stores, the next one reads back. -/
theorem readReturnsLastWrite : Obligations.ReadReturnsLastWrite := by
  intro s a v rest hp ha hr
  obtain ⟨t, hwrite, hstore, hread⟩ := hostRead_after_hostWrite (s.setPending (.read a :: rest)) ha hr
  have hstep : step s = .next t := (step_event s _ _ hp).trans hwrite
  have hstep' : step t = .next ((t.setPending rest).answer v) :=
    (step_event t _ _ hstore.pending_eq).trans (hread rest)
  refine ⟨(t.setPending rest).answer v, ?_, ?_, rfl, hstore.status_eq, hstore.crc_eq⟩
  · rw [run_succ_of_next 1 s t hstep, run_succ_of_next 0 t _ hstep', run_zero]
  · exact congrArg (v :: ·) hstore.answers_eq

end Sys2Proof.Machine
end

section
/-! PROOF. Every event terminates unless it reads an unwritten cell, and takes one event off the host's list (spec/20_memory.md R33,
R35, R40; spec/70_reset_and_hazards.md R169). -/

namespace Sys2Proof.Machine

/-! ## Termination -/

/-- The event completes, unless it reads an unwritten cell: then it stops, naming one (R24, R35, R169). -/
def CompletesUnlessUndefined (e : Event) (s : State) : Prop :=
  (undefinedEvent e s = false → ∃ t, serve e s = .next t) ∧
  (undefinedEvent e s = true → ∃ k, serve e s = .fault (.undefinedRead k) ∧ written s.buf k = false)

theorem CompletesUnlessUndefined.of_next {e : Event} {s t : State} (hu : undefinedEvent e s = false)
    (h : serve e s = .next t) : CompletesUnlessUndefined e s :=
  ⟨fun _ => ⟨t, h⟩, fun hu' => by simp [hu] at hu'⟩

theorem CompletesUnlessUndefined.of_fault {e : Event} {s : State} {k : Nat} (hu : undefinedEvent e s = true)
    (h : serve e s = .fault (.undefinedRead k)) (hk : written s.buf k = false) : CompletesUnlessUndefined e s :=
  ⟨fun hu' => by simp [hu] at hu', fun _ => ⟨k, h, hk⟩⟩

/-- A read of a buffer cell is undefined where the cell is unwritten. -/
theorem undefinedEvent_read_of_buf {a : CellAddr} {k : Nat} (s : State) (ha : a.toNat = 0x100 + k) :
    undefinedEvent (.read a) s = !written s.buf k := by
  simp [undefinedEvent, ha]

theorem read_completesUnlessUndefined (a : CellAddr) (s : State) : CompletesUnlessUndefined (.read a) s := by
  rcases cellOf_cases a with ⟨rfl, -⟩ | ⟨rfl, -⟩ | ⟨rfl, -⟩ | ⟨rfl, -⟩ | ⟨rfl, -⟩ | ⟨rfl, -⟩ | ⟨rfl, -⟩ |
    ⟨-, hhi, hc⟩ | ⟨k, -, hak, hc⟩
  iterate 7 exact .of_next rfl rfl
  · have hlt : ¬ 0x100 ≤ a.toNat := by omega
    exact .of_next (by simp [undefinedEvent, hlt]) (hostRead_of_reserved s hc)
  · have hu := undefinedEvent_read_of_buf s hak
    cases hb : Memory.get s.buf k with
    | some b => exact .of_next (by simp [hu, written, hb]) (hostRead_of_written hc hb)
    | none =>
      have hw : written s.buf k = false := (written_eq_false_iff ..).2 hb
      exact .of_fault (by simp [hu, hw]) (hostRead_of_unwritten hc hb) hw

/-- Different commands have different words (R58 to R60). -/
theorem encode_beq (i j : Instr) : (encode i == encode j) = decide (i = j) := by
  rw [Bool.eq_iff_iff, beq_iff_eq, decide_eq_true_iff]
  refine ⟨fun h => ?_, congrArg encode⟩
  have hd := decode_encode i
  rw [h, decode_encode] at hd
  exact (Except.ok.inj hd).symm

/-- The write of a command's word is undefined where the command is. -/
theorem undefinedEvent_encode (i : Instr) (s : State) :
    undefinedEvent (.write 0x000 (encode i)) s = undefinedCommand i s := by
  have henc : (encode i == 0x1000) = decide (i = .enc) := encode_beq i .enc
  have hdec : (encode i == 0x2000) = decide (i = .dec) := encode_beq i .dec
  rw [undefinedEvent, henc, hdec]
  cases i <;> simp [cmdAddr, undefinedCommand]

/-- A write that puts no command's word into `CMD` reads no cell. -/
theorem undefinedEvent_write_of_ne {a : CellAddr} {v : Word} (s : State)
    (h : ∀ i, Event.write a v ≠ .write 0x000 (encode i)) : undefinedEvent (.write a v) s = false := by
  have henc := h .enc
  have hdec := h .dec
  simp only [ne_eq, Event.write.injEq, encode] at henc hdec
  simp only [undefinedEvent, cmdAddr, Bool.and_eq_false_iff, Bool.or_eq_false_iff, beq_eq_false_iff_ne]
  tauto

theorem write_completesUnlessUndefined (a : CellAddr) (v : Word) (s : State) :
    CompletesUnlessUndefined (.write a v) s := by
  by_cases ha : a = 0x000
  · subst ha
    rcases command_cases v s with ⟨i, rfl, e⟩ | ⟨hi, e⟩
    · have hserve : serve (.write 0x000 (encode i)) s = exec i s := e
      rw [CompletesUnlessUndefined, undefinedEvent_encode, hserve]
      exact commandCompletesUnlessUndefinedRead i s
    · exact .of_next (undefinedEvent_write_of_ne s fun i h => hi i (Event.write.inj h).2.symm) e
  · obtain ⟨t, e, -⟩ := hostWrite_of_ne_cmd v s ha
    exact .of_next (undefinedEvent_write_of_ne s fun i h => ha (Event.write.inj h).1) e

theorem serve_completesUnlessUndefined (e : Event) (s : State) : CompletesUnlessUndefined e s := by
  cases e with
  | read a => exact read_completesUnlessUndefined a s
  | write a v => exact write_completesUnlessUndefined a v s
  | reset => exact .of_next rfl rfl

/-- Whether an event is undefined does not depend on what the host has still to issue. -/
theorem undefinedEvent_setPending (e : Event) (s : State) (es : List Event) :
    undefinedEvent e (s.setPending es) = undefinedEvent e s := by
  cases e <;> rfl

/-- Settles O31: event by event; that of a command word is O30. -/
theorem everyTransactionTerminates : Obligations.EveryTransactionTerminates := by
  refine ⟨step_idle, fun s e rest hp => ?_⟩
  rw [step_event s e rest hp, ← undefinedEvent_setPending e s rest]
  exact serve_completesUnlessUndefined e (s.setPending rest)

/-! ## The host's two lists -/

/-- A write, whether it runs a command, is refused or stores, leaves the host's lists. -/
theorem hostWrite_lists_eq {a : CellAddr} {v : Word} {s t : State} (h : hostWrite a v s = .next t) :
    t.pending = s.pending ∧ t.answers = s.answers := by
  rcases hostWrite_next_cases h with ⟨-, i, -, hrun⟩ | ⟨-, rfl⟩ | ⟨-, hstore⟩
  · exact ((commandsIgnoreHostSide i s [] []).1 t hrun).2
  · exact ⟨rfl, rfl⟩
  · exact ⟨hstore.pending_eq, hstore.answers_eq⟩

/-- A read, legal or refused, leaves the list of events and returns one value. -/
theorem hostRead_returns_one_value {a : CellAddr} {s t : State} (h : hostRead a s = .next t) :
    t.pending = s.pending ∧ ∃ v, t.answers = v :: s.answers := by
  rcases hostRead_next_cases h with ⟨-, rfl⟩ | ⟨-, v, rfl⟩
  · exact ⟨rfl, _, rfl⟩
  · exact ⟨rfl, v, rfl⟩

/-- Settles O32: `step` takes the event off the list; serving it touches the lists only to add a read's value. -/
theorem oneEventPerStep : Obligations.OneEventPerStep := by
  intro s t e rest hp h
  rw [step_event s e rest hp] at h
  cases e with
  | read a =>
    obtain ⟨hpend, hans⟩ := hostRead_returns_one_value (s := s.setPending rest) h
    exact ⟨hpend, fun _ _ => hans, fun hne => absurd rfl (hne a)⟩
  | write a v =>
    obtain ⟨hpend, hans⟩ := hostWrite_lists_eq (s := s.setPending rest) h
    exact ⟨hpend, by simp, fun _ => hans⟩
  | reset =>
    obtain rfl := Host.Outcome.next.inj h
    exact ⟨rfl, by simp, fun _ => rfl⟩

end Sys2Proof.Machine
end

section
/-! PROOF. The codec commands read only their cells of `BUF` (spec/20_memory.md R44). -/

namespace Sys2Proof.Machine

/-- The same registers over another buffer. -/
def State.withBuf (s : State) (m : Memory) : State := { s with buf := m }

section
variable (s : State) (m : Memory)

@[simp] theorem withBuf_addr : (s.withBuf m).addr = s.addr := rfl
@[simp] theorem withBuf_fc : (s.withBuf m).fc = s.fc := rfl
@[simp] theorem withBuf_plen : (s.withBuf m).plen = s.plen := rfl
@[simp] theorem withBuf_flen : (s.withBuf m).flen = s.flen := rfl
@[simp] theorem withBuf_buf : (s.withBuf m).buf = m := rfl
@[simp] theorem encodingFails_withBuf : encodingFails (s.withBuf m) = encodingFails s := rfl

end

/-- `DEC` stores nothing, so over a buffer with the same raw bytes it does the same to the registers and keeps that buffer. -/
theorem execDec_withBuf {s : State} {m : Memory} (h : ∀ k < s.flen.toNat, Memory.get m k = Memory.get s.buf k) :
    execDec (s.withBuf m) = mapNext (·.withBuf m) (execDec s) := by
  have hread : memRead m 0 s.flen.toNat = memRead s.buf 0 s.flen.toNat :=
    memRead_congr _ _ _ _ (by simpa using h)
  rw [execDec_eq, execDec_eq, withBuf_buf, withBuf_flen, hread]
  split_ifs
  · rfl
  · rfl
  · cases memRead s.buf 0 s.flen.toNat with
    | error f => rfl
    | ok bs =>
      dsimp only
      cases frameDecode bs <;> rfl

/-- `ENC` with an operand out of range reports it, whatever `BUF` holds (R84). -/
theorem execEnc_of_out_of_range {s : State} (h : 247 < s.addr.toNat ∨ 252 < s.plen.toNat) :
    execEnc s = .next (raise .encodingError .enc s) := by
  rw [execEnc_eq, if_pos ((encodingFails_iff s).2 h)]

/-- `ENC` on operands in range and a written payload succeeds (R83). -/
theorem execEnc_of_holds {s : State} {p : List Byte} (ha : s.addr.toNat ≤ 247) (hp : s.plen.toNat ≤ 252)
    (hl : p.length = s.plen.toNat) (hh : holds s.buf 2 p) : execEnc s = .next (encDone s p) := by
  have hread : memRead s.buf 2 s.plen.toNat = .ok p := (memRead_ok_iff ..).2 ⟨hl, hl ▸ hh⟩
  have hin : ¬ encodingFails s = true := by
    rw [encodingFails_iff]
    omega
  rw [execEnc_eq, if_neg hin, hread]

theorem mem_encStores {s : State} {k : Nat} (h : k ∈ encStores s) :
    k = 0 ∨ k = 1 ∨ k = s.plen.toNat + 2 ∨ k = s.plen.toNat + 3 := by
  rw [encStores] at h
  split_ifs at h
  · cases h
  · simpa [encChecksumOffset] using h

/-- What a successful `ENC` leaves in the cells it stores to does not depend on what `BUF` held. -/
theorem encDone_withBuf_get {s : State} (m : Memory) (p : List Byte) {k : Nat} (hk : k ∈ encStores s) :
    Memory.get (encDone (s.withBuf m) p).buf k = Memory.get (encDone s p).buf k := by
  rw [encDone_get, encDone_get]
  rcases mem_encStores hk with rfl | rfl | rfl | rfl <;> simp

/-- Settles O38: `DEC` commutes with the change of buffer; `ENC` takes the same branch with the same payload. -/
theorem codecReadsOnlyItsCells : Obligations.CodecReadsOnlyItsCells := by
  refine ⟨fun s t m hm h => ?_, fun s t m hm h => ?_⟩
  · exact (execDec_withBuf hm).trans (congrArg _ h)
  · rcases execEnc_next_cases h with ⟨hf, rfl⟩ | ⟨ha, hp, p, hl, hh, rfl⟩
    · refine ⟨_, execEnc_of_out_of_range (s := s.withBuf m) hf, rfl, ?_⟩
      simp [encStores, (encodingFails_iff s).2 hf]
    · have hm : holds m 2 p := fun k hk => (hm k (hl ▸ hk)).trans (hh k hk)
      exact ⟨_, execEnc_of_holds (s := s.withBuf m) ha hp hl hm, rfl, fun k hk => encDone_withBuf_get m p hk⟩

end Sys2Proof.Machine
end

section
/-! PROOF. The command words, row by row of the opcode map, and the reserved words (spec/30_encoding.md R58 to R61). -/

namespace Sys2Proof.Machine

/-- Settles O4: the two laws of the decoder and the encoder. -/
theorem decodeAndEncodeAgree : Obligations.DecodeAndEncodeAgree := ⟨decode_encode, fun _ _ => encode_of_decode⟩

/-- Settles O3: each word is that of its command. -/
theorem commandWordsDecode : Obligations.CommandWordsDecode :=
  ⟨decode_encode .nop, decode_encode .crcInit, decode_encode (.crcByte 0x01), decode_encode (.crcByte 0xFF),
    decode_encode .enc, decode_encode .dec, decode_encode .clr⟩

/-! ## The opcode map -/

theorem row_selects_encode (i : Instr) : encode i &&& i.row.mask = i.row.pattern := by
  cases i with
  | crcByte imm8 => exact beq_iff_eq.1 (Laws.EncodeMatchesRow.crcByte imm8)
  | nop | crcInit | enc | dec | clr => rfl

/-- A word that a row selects is the word of a command of that row (R60). -/
theorem exists_encode_of_selected {w : Word} {r : OpcodeRow} (hr : r ∈ opcodeMap) (h : w &&& r.mask = r.pattern) :
    ∃ i, encode i = w ∧ i.row = r := by
  have bare : ∀ i : Instr, i.row.mask = BitVec.allOnes 16 → i.row.pattern = encode i → w &&& i.row.mask = i.row.pattern →
      ∃ j, encode j = w ∧ j.row = i.row := by
    intro i hm hpat hsel
    rw [hm, BitVec.and_allOnes, hpat] at hsel
    exact ⟨i, hsel.symm, rfl⟩
  simp only [opcodeMap, List.mem_cons, List.not_mem_nil, or_false] at hr
  rcases hr with rfl | rfl | rfl | rfl | rfl | rfl
  · exact bare .nop rfl rfl h
  · exact bare .crcInit rfl rfl h
  · refine ⟨.crcByte (immField w), ?_, rfl⟩
    rw [encode_crcByte, ← opcodeField_of_crcByte_row h, ← word_eq_opcode_imm]
  · exact bare .enc rfl rfl h
  · exact bare .dec rfl rfl h
  · exact bare .clr rfl rfl h

theorem selected_iff_decode {w : Word} {r : OpcodeRow} (hr : r ∈ opcodeMap) :
    w &&& r.mask = r.pattern ↔ ∃ i, decode w = .ok i ∧ i.row = r := by
  constructor
  · intro h
    obtain ⟨i, rfl, hrow⟩ := exists_encode_of_selected hr h
    exact ⟨i, decode_encode i, hrow⟩
  · rintro ⟨i, hd, rfl⟩
    rw [← encode_of_decode hd]
    exact row_selects_encode i

/-- Settles O5: a selected word decodes to a command of the row, and a word decodes to one command, which has one row. -/
theorem opcodeMapSelectsCommand : Obligations.OpcodeMapSelectsCommand := by
  refine ⟨fun w r hr => selected_iff_decode hr, fun w r q hr hq hwr hwq => ?_⟩
  obtain ⟨i, hi, rfl⟩ := (selected_iff_decode hr).1 hwr
  obtain ⟨j, hj, rfl⟩ := (selected_iff_decode hq).1 hwq
  rw [Except.ok.inj (hi.symm.trans hj)]

/-! ## Reserved words -/

/-- No row selects a word exactly when it is no command's word (R61). -/
theorem unselected_iff (w : Word) : (∀ r ∈ opcodeMap, w &&& r.mask ≠ r.pattern) ↔ ∀ i, encode i ≠ w := by
  rw [← not_exists, ← commandWordWellFormed_iff, commandWordWellFormed, List.any_eq_true]
  simp [OpcodeRow.selects]

/-- The command words by their fields: `CRC.BYTE` takes every `imm8`, the other five take 0x00 alone (R58, R60). -/
theorem exists_encode_iff (w : Word) :
    (∃ i, encode i = w) ↔
      opcodeField w = 0x02 ∨ opcodeField w ∈ ([0x00, 0x01, 0x10, 0x20, 0x30] : List Byte) ∧ immField w = 0x00 := by
  constructor
  · rintro ⟨i, rfl⟩
    cases i with
    | crcByte imm8 => exact .inl (by rw [encode_crcByte, opcodeField_joinBytes])
    | nop | crcInit | enc | dec | clr => exact .inr (by decide)
  · rintro (hop | ⟨hop, himm⟩)
    · exact ⟨.crcByte (immField w), by rw [encode_crcByte, ← hop, ← word_eq_opcode_imm]⟩
    · have hw := word_eq_opcode_imm w
      simp only [List.mem_cons, List.not_mem_nil, or_false] at hop
      rcases hop with hop | hop | hop | hop | hop <;> rw [hop, himm] at hw
      · exact ⟨.nop, hw.symm⟩
      · exact ⟨.crcInit, hw.symm⟩
      · exact ⟨.enc, hw.symm⟩
      · exact ⟨.dec, hw.symm⟩
      · exact ⟨.clr, hw.symm⟩

/-- Settles O6: the reserved words are those of no command, and the write of one is among the refused accesses (R35 (f)). -/
theorem reservedWordOnlySetsAccErr : Obligations.ReservedWordOnlySetsAccErr := by
  refine ⟨fun w => ?_, fun s rest w hp hw => ?_⟩
  · rw [unselected_iff, ← not_exists, exists_encode_iff]
    by_cases hop : opcodeField w = 0x02
    · simp [hop]
    · simp only [List.mem_cons, hop, false_or]
      tauto
  · have hrefused : refusedEvent (.write 0x000 w) = true := (refusedEvent_cmd_iff w).2 ((unselected_iff w).1 hw)
    exact (accErrSetByRefusalsOnly s _ rest hp).1 hrefused

end Sys2Proof.Machine
end

section
/-! PROOF. The functions `encode` and `decode` case by case, and the layout of a frame (spec/30_encoding.md R50, R52;
spec/41_frame_encode.md R80; spec/42_frame_decode.md R90). -/

namespace Sys2Proof.Machine

/-- The bytes of a frame: address, function code, payload, checksum with the low byte first (R50, R55). -/
def encodedFrame (a f : Byte) (p : List Byte) : List Byte := [a, f] ++ p ++ checksumField (crc16 ([a, f] ++ p))

/-- Everything `encode` can do (R80, R81). -/
theorem frameEncode_cases (a : Int) (f : Byte) (p : List Byte) :
    ((¬ (0 ≤ a ∧ a ≤ 247) ∨ 252 < p.length) ∧ frameEncode a f p = .error .encodingError) ∨
    ((0 ≤ a ∧ a ≤ 247) ∧ p.length ≤ 252 ∧ frameEncode a f p = .ok (encodedFrame (BitVec.ofInt 8 a) f p)) := by
  by_cases h : a < 0 ∨ a > 247 ∨ p.length > 252
  · exact .inl ⟨by omega, if_pos h⟩
  · exact .inr ⟨by omega, by omega, if_neg h⟩

theorem frameEncode_ok {a : Int} {f : Byte} {p frame : List Byte} (h : frameEncode a f p = .ok frame) :
    p.length ≤ 252 ∧ frame = encodedFrame (BitVec.ofInt 8 a) f p := by
  rcases frameEncode_cases a f p with ⟨-, e⟩ | ⟨-, hp, e⟩ <;> rw [e] at h
  · cases h
  · exact ⟨hp, (Except.ok.inj h).symm⟩

@[simp] theorem encodedFrame_length (a f : Byte) (p : List Byte) : (encodedFrame a f p).length = p.length + 4 := by
  simp [encodedFrame, checksumField]

/-- The bytes that a frame's checksum covers (R55, R80). -/
theorem encodedFrame_take (a f : Byte) (p : List Byte) : (encodedFrame a f p).take (p.length + 2) = [a, f] ++ p := by
  rw [encodedFrame, List.take_append_of_le_length (by simp), List.take_of_length_le (by simp)]

/-- What stands at each byte index of a frame (R50). -/
theorem encodedFrame_getElem? (a f : Byte) (p : List Byte) (k : Nat) (hk : k < p.length + 4) :
    (encodedFrame a f p)[k]? =
      if k = p.length + 3 then some (highByte (crc16 ([a, f] ++ p)))
      else if k = p.length + 2 then some (lowByte (crc16 ([a, f] ++ p)))
      else if k = 1 then some f
      else if k = 0 then some a
      else p[k - 2]? := by
  rcases k with _ | _ | k
  · simp [encodedFrame]
  · simp [encodedFrame]
  · rcases lt_trichotomy k p.length with hlt | rfl | hgt
    · simp [encodedFrame, List.getElem?_append_left hlt, hlt.ne, show k ≠ p.length + 1 by omega]
    · simp [encodedFrame, checksumField]
    · obtain rfl : k = p.length + 1 := by omega
      simp [encodedFrame, checksumField]

/-- Settles O45: each index of `encodedFrame`. -/
theorem encodedFrameLayout : Obligations.EncodedFrameLayout := by
  intro a f p frame h
  obtain ⟨hp, rfl⟩ := frameEncode_ok h
  rw [encodedFrame_take, encodedFrame_length, BitVec.ofInt_natCast]
  refine ⟨rfl, by omega, by omega, rfl, rfl, fun i hi => ?_, ?_, ?_⟩
  · rw [encodedFrame_getElem? _ _ _ _ (by omega), if_neg (by omega), if_neg (by omega), if_neg (by omega),
      if_neg (by omega), Nat.add_sub_cancel]
  · rw [encodedFrame_getElem? _ _ _ _ (by omega), if_neg (by omega), if_pos rfl, lowByte]
  · rw [encodedFrame_getElem? _ _ _ _ (by omega), if_pos rfl, highByte]

/-- Everything `decode` can do (R90, R91). -/
theorem frameDecode_cases (bs : List Byte) :
    (bs.length < 4 ∧ frameDecode bs = .error .truncatedFrameError) ∨
    (4 ≤ bs.length ∧ frameDecode bs = .error .checksumError) ∨
    ∃ f, f.payload.length + 4 = bs.length ∧ frameDecode bs = .ok f := by
  by_cases hlen : bs.length < 4
  · exact .inl ⟨hlen, frameDecode_short bs hlen⟩
  · obtain ⟨a, f, lo, hi, p, rfl⟩ := frame_split bs (by omega)
    rw [frameDecode_frame]
    by_cases hc : crc16 ([a, f] ++ p) ≠ joinBytes hi lo
    · exact .inr (.inl ⟨by omega, if_pos hc⟩)
    · exact .inr (.inr ⟨⟨a, f, p⟩, by simp, if_neg hc⟩)

/-- A successful `ENC` leaves the frame of its operands from cell 0 on (R83). -/
theorem holds_encDone {s : State} {p : List Byte} (hl : p.length = s.plen.toNat) (hh : holds s.buf 2 p) :
    holds (encDone s p).buf 0 (encodedFrame s.addr s.fc p) := by
  intro k hk
  rw [encodedFrame_length] at hk
  rw [Nat.zero_add, encDone_get, ← hl, encodedFrame_getElem? _ _ _ _ hk]
  split_ifs
  iterate 4 rfl
  rw [← hh (k - 2) (by omega), Nat.add_sub_cancel' (by omega)]

theorem memRead_of_holds {m : Memory} {k n : Nat} {bs : List Byte} (hl : bs.length = n) (hh : holds m k bs) :
    memRead m k n = .ok bs := (memRead_ok_iff ..).2 ⟨hl, hl ▸ hh⟩

/-! `DEC` on written raw bytes, by the answer of `decode` (R93, R94). -/

section
variable {s : State} {bs : List Byte} (hl : bs.length = s.flen.toNat)
include hl

theorem execDec_of_short (hlen : bs.length < 4) : execDec s = .next (raise .truncatedFrameError .dec s) := by
  rw [execDec_eq, if_neg (by omega), if_pos (by omega)]

variable (h256 : bs.length ≤ 256) (hh : holds s.buf 0 bs)
include h256 hh

theorem execDec_of_decode_error (hlen : 4 ≤ bs.length) {e : ErrorKind} (hd : frameDecode bs = .error e) :
    execDec s = .next (raise .checksumError .dec (s.setCrc (crc16 (bs.take (s.flen.toNat - 2))))) := by
  rw [execDec_eq, if_neg (by omega), if_neg (by omega), memRead_of_holds hl hh]
  simp only [hd]

theorem execDec_of_decode_ok (hlen : 4 ≤ bs.length) {f : Frame} (hd : frameDecode bs = .ok f) :
    execDec s = .next (decDone s f.address f.functionCode f.payload) := by
  rw [execDec_eq, if_neg (by omega), if_neg (by omega), memRead_of_holds hl hh]
  simp only [hd]

end

end Sys2Proof.Machine
end

section
/-! PROOF. The lines of a host program, and the pseudo-instructions as runs (spec/30_encoding.md R63, R64). -/

namespace Sys2Proof.Machine

/-! ## One line of a host program -/

section
variable {s : State} {rest : List Event}

theorem step_cmd {i : Instr} (hp : s.pending = cmd i :: rest) : step s = exec i (s.setPending rest) :=
  cmdWriteRunsSelectedCommand.1 s rest _ i hp (decode_encode i)

theorem step_wr_addr {b : Byte} (hp : s.pending = wr addrAddr (zextByte b) :: rest) :
    step s = .next ((s.setPending rest).setAddr b) :=
  (step_event s _ rest hp).trans (congrArg _ (writeByte_fits ..))

theorem step_wr_fc {b : Byte} (hp : s.pending = wr fcAddr (zextByte b) :: rest) :
    step s = .next ((s.setPending rest).setFc b) :=
  (step_event s _ rest hp).trans (congrArg _ (writeByte_fits ..))

/-- The word of a length below 512 is that of its register value (R32). -/
theorem zextLength_ofNat {n : Nat} (hn : n < 512) : zextLength (BitVec.ofNat 9 n) = BitVec.ofNat 16 n := by
  apply BitVec.eq_of_toNat_eq
  rw [zextLength, BitVec.toNat_setWidth, toNat_ofNat_length n hn, BitVec.toNat_ofNat]

theorem step_wr_plen {n : Nat} (hn : n < 512) (hp : s.pending = wr plenAddr (BitVec.ofNat 16 n) :: rest) :
    step s = .next ((s.setPending rest).setPlen (BitVec.ofNat 9 n)) := by
  rw [← zextLength_ofNat hn] at hp
  exact (step_event s _ rest hp).trans (congrArg _ (writeLength_fits ..))

theorem step_wr_flen {n : Nat} (hn : n < 512) (hp : s.pending = wr flenAddr (BitVec.ofNat 16 n) :: rest) :
    step s = .next ((s.setPending rest).setFlen (BitVec.ofNat 9 n)) := by
  rw [← zextLength_ofNat hn] at hp
  exact (step_event s _ rest hp).trans (congrArg _ (writeLength_fits ..))

theorem step_wr_buf {k : Nat} {b : Byte} (hk : k < 256) (hp : s.pending = wr (bufAddr k) (zextByte b) :: rest) :
    step s = .next ((s.setPending rest).store k b) := by
  rw [step_event s _ rest hp, wr, serve, hostWrite_of_buf _ _ (cellOf_bufAddr k hk), writeByte_fits]

theorem step_rd_status (hp : s.pending = rd statusAddr :: rest) : step s = .next ((s.setPending rest).answer s.status) :=
  step_event s _ rest hp

theorem step_rd_crc (hp : s.pending = rd crcAddr :: rest) : step s = .next ((s.setPending rest).answer s.crc) :=
  step_event s _ rest hp

end

/-! ## `CHECKSUM` -/

/-- `CRC.BYTE` for each byte folds the bytes into `CRC`, in order (R72, R76). -/
theorem run_crcBytes {s : State} {bs : List Byte} {rest : List Event}
    (hp : s.pending = bs.map (fun b => cmd (.crcByte b)) ++ rest) :
    run bs.length s = .next ((s.setPending rest).setCrc (bs.foldl crcUpdate s.crc)) := by
  induction bs generalizing s with
  | nil =>
    rw [← show s.pending = rest from hp]
    rfl
  | cons b bs ih =>
    rw [List.length_cons, run_succ_of_next _ _ _ (step_cmd hp)]
    exact ih rfl

/-- Settles O50: `CRC.INIT`, the bytes, the read of `CRC`. -/
theorem checksumProgramReturnsChecksum : Obligations.ChecksumProgramReturnsChecksum := by
  intro s bs hp
  have hinit : step s = .next ((s.setPending _).setCrc Config.crcInit) := step_cmd hp
  rw [run_succ_of_next _ _ _ hinit, run_add _ 1 _ _ (run_crcBytes (rest := [rd crcAddr]) rfl),
    run_succ_of_next _ _ _ (step_rd_crc rfl)]
  rfl

/-! ## `LDBUF` -/

/-- The buffer after the bytes are stored in the cells from `k` on. -/
def Memory.load (m : Memory) (k : Nat) : List Byte → Memory
  | []      => m
  | b :: bs => Memory.load (Memory.put m k b) (k + 1) bs

theorem get_load_of_lt (m : Memory) (k j : Nat) (bs : List Byte) (hj : j < k) :
    Memory.get (Memory.load m k bs) j = Memory.get m j := by
  induction bs generalizing m k with
  | nil => rfl
  | cons b bs ih => rw [Memory.load, ih _ _ (by omega), get_put_other _ _ _ _ hj.ne]

theorem holds_load (m : Memory) (k : Nat) (bs : List Byte) : holds (Memory.load m k bs) k bs := by
  induction bs generalizing m k with
  | nil => intro i hi; cases hi
  | cons b bs ih =>
    intro i hi
    cases i with
    | zero => exact (get_load_of_lt _ _ _ _ k.lt_add_one).trans (get_put_same ..)
    | succ i =>
      rw [Memory.load, List.getElem?_cons_succ, ← ih (Memory.put m k b) (k + 1) i (Nat.lt_of_succ_lt_succ hi),
        Nat.add_right_comm, Nat.add_assoc]

/-- `LDBUF` stores its bytes and changes nothing else (R64). -/
theorem run_ldbuf {s : State} {k : Nat} {bs : List Byte} {rest : List Event} (hk : k + bs.length ≤ 256)
    (hp : s.pending = ldbuf k bs ++ rest) :
    run bs.length s = .next ((s.setPending rest).withBuf (Memory.load s.buf k bs)) := by
  induction bs generalizing s k with
  | nil =>
    rw [← show s.pending = rest from hp]
    rfl
  | cons b bs ih =>
    rw [List.length_cons] at hk
    rw [List.length_cons, run_succ_of_next _ _ _ (step_wr_buf (by omega) hp)]
    exact ih (by omega) rfl

/-! ## `ENCODE` and `DECODE` -/

/-- The last two lines of a program: the command does what it does with nothing pending, and `STATUS` is returned (R64). -/
theorem run_cmd_rd_status {s t : State} {i : Instr} (hp : s.pending = [cmd i, rd statusAddr]) (h : exec i s = .next t) :
    run 2 s = .next (t.withHostSide [] (t.status :: s.answers)) := by
  have hcmd : step s = .next (t.withHostSide [rd statusAddr] s.answers) := by
    refine (step_cmd hp).trans ((exec_withHostSide s [rd statusAddr] s.answers i).trans ?_)
    rw [h]
    rfl
  rw [run_succ_of_next _ _ _ hcmd, run_succ_of_next _ _ _ (step_rd_status rfl)]
  rfl

/-- The state in which `ENCODE a, f, p` issues `ENC`. -/
def encodeLoaded (s : State) (a f : Byte) (p : List Byte) : State :=
  { s with
    addr := a, fc := f, plen := BitVec.ofNat 9 p.length, buf := Memory.load s.buf 2 p
    pending := [cmd .enc, rd statusAddr] }

/-- The state in which `DECODE bs` issues `DEC`. -/
def decodeLoaded (s : State) (bs : List Byte) : State :=
  { s with
    flen := BitVec.ofNat 9 bs.length, buf := Memory.load s.buf 0 bs
    pending := [cmd .dec, rd statusAddr] }

/-- `ENCODE` ends as `ENC` does on its operands (R64). -/
theorem run_encodeProgram {s t : State} {a f : Byte} {p : List Byte} (hp : s.pending = encodeProgram a f p)
    (hl : p.length ≤ 254) (h : execEnc (encodeLoaded s a f p) = .next t) :
    run (p.length + 5) s = .next (t.withHostSide [] (t.status :: s.answers)) := by
  rw [run_succ_of_next _ _ _ (step_wr_addr hp), run_succ_of_next _ _ _ (step_wr_fc rfl),
    run_add _ 3 _ _ (run_ldbuf (by omega) rfl), run_succ_of_next _ _ _ (step_wr_plen (by omega) rfl)]
  exact run_cmd_rd_status (s := encodeLoaded s a f p) (i := .enc) rfl h

/-- `DECODE` ends as `DEC` does on its raw bytes (R64). -/
theorem run_decodeProgram {s t : State} {bs : List Byte} (hp : s.pending = decodeProgram bs) (hl : bs.length ≤ 256)
    (h : execDec (decodeLoaded s bs) = .next t) :
    run (bs.length + 3) s = .next (t.withHostSide [] (t.status :: s.answers)) := by
  rw [run_add _ 3 _ _ (run_ldbuf (by omega) hp), run_succ_of_next _ _ _ (step_wr_flen (by omega) rfl)]
  exact run_cmd_rd_status (s := decodeLoaded s bs) (i := .dec) rfl h

/-- Settles O51: `ENC` on the loaded operands, in the two cases of `encode`. -/
theorem encodeProgramRealisesEncode : Obligations.EncodeProgramRealisesEncode := by
  intro s a f p hp hl
  have hplen : (encodeLoaded s a f p).plen.toNat = p.length := toNat_ofNat_length _ (by omega)
  rcases frameEncode_cases a.toNat f p with ⟨hbad, e⟩ | ⟨⟨-, ha⟩, h252, e⟩ <;> rw [e]
  · have hrange : 247 < a.toNat ∨ 252 < (encodeLoaded s a f p).plen.toNat := by omega
    have hrun := run_encodeProgram hp hl (execEnc_of_out_of_range hrange)
    exact ⟨_, hrun, rfl, rfl, last_raise .., accErr_raise .., err_raise .., rfl, rfl⟩
  · have ha : a.toNat ≤ 247 := by omega
    have hh : holds (encodeLoaded s a f p).buf 2 p := holds_load _ _ _
    have hflen : (encDone (encodeLoaded s a f p) p).flen.toNat = p.length + 4 := by
      rw [← hplen]
      exact toNat_ofNat_length _ (by omega)
    rw [BitVec.ofInt_natCast, BitVec.ofNat_toNat, BitVec.setWidth_eq]
    have hrun := run_encodeProgram hp hl (execEnc_of_holds ha (by omega) hplen.symm hh)
    exact ⟨_, hrun, rfl, rfl, encDone_last .., encDone_accErr .., encDone_err ..,
      hflen.trans (encodedFrame_length ..).symm, holds_encDone hplen.symm hh⟩

/-- Settles O52: `DEC` on the loaded bytes, in the three cases of `decode`. -/
theorem decodeProgramRealisesDecode : Obligations.DecodeProgramRealisesDecode := by
  intro s bs hp h256
  have hflen : bs.length = (decodeLoaded s bs).flen.toNat := (toNat_ofNat_length _ (by omega)).symm
  have hh : holds (decodeLoaded s bs).buf 0 bs := holds_load _ _ _
  rcases frameDecode_cases bs with ⟨hlen, e⟩ | ⟨hlen, e⟩ | ⟨f, hlen, e⟩ <;> rw [e]
  · have hrun := run_decodeProgram hp h256 (execDec_of_short hflen hlen)
    exact ⟨_, hrun, rfl, rfl, last_raise .., accErr_raise .., hh, err_raise .., rfl, rfl, rfl⟩
  · have hrun := run_decodeProgram hp h256 (execDec_of_decode_error hflen h256 hh hlen e)
    exact ⟨_, hrun, rfl, rfl, last_raise .., accErr_raise .., hh, err_raise .., rfl, rfl, rfl⟩
  · have hrun := run_decodeProgram hp h256 (execDec_of_decode_ok hflen h256 hh (by omega) e)
    exact ⟨_, hrun, rfl, rfl, decDone_last .., decDone_accErr .., hh, decDone_err .., rfl, rfl,
      toNat_ofNat_length _ (by omega)⟩

end Sys2Proof.Machine
end

section
/-! PROOF. The functions `crc_update` and `crc16`: the table form, the injectivity of the fold and the residue of a frame
(spec/40_crc_engine.md R71, R72, R77 to R79). -/

namespace Sys2Proof.Machine

/-! ## Bytes of a word -/

theorem zextByte_eq_joinBytes (b : Byte) : zextByte b = joinBytes 0#8 b := BitVec.setWidth_eq_append (by decide)

/-- The xor with a byte changes the low byte alone (R71). -/
theorem joinBytes_xor_zextByte (hi lo b : Byte) : joinBytes hi lo ^^^ zextByte b = joinBytes hi (lo ^^^ b) := by
  rw [zextByte_eq_joinBytes, joinBytes, joinBytes, BitVec.xor_append, BitVec.xor_zero, joinBytes]

/-- A word whose low byte is 0, or'ed with a byte (R60). -/
theorem joinBytes_zero_or_zextByte (hi b : Byte) : joinBytes hi 0#8 ||| zextByte b = joinBytes hi b := by
  rw [zextByte_eq_joinBytes, joinBytes, joinBytes, BitVec.or_append, BitVec.or_zero, BitVec.zero_or, joinBytes]

/-- Shifting the low byte out leaves the high byte (R77). -/
theorem joinBytes_ushiftRight_eight (hi lo : Byte) : joinBytes hi lo >>> 8 = zextByte hi := by
  have hsplit : joinBytes hi lo >>> 8 = joinBytes 0#8 (highByte (joinBytes hi lo)) :=
    BitVec.ushiftRight_eq_extractLsb'_of_lt (by decide)
  rw [hsplit, highByte_joinBytes, zextByte_eq_joinBytes]

/-! ## The table form -/

/-- Turns of the loop whose tested bits are all 0 only shift (R77). -/
theorem crcShifts_of_low_bits_zero {n : Nat} {r : Word} (h : ∀ i < n, r.getLsbD i = false) : crcShifts n r = r >>> n := by
  induction n generalizing r with
  | zero => rfl
  | succ n ih =>
    have hrest : ∀ i < n, (r >>> 1).getLsbD i = false := fun i hi => by
      rw [BitVec.getLsbD_ushiftRight]
      exact h (1 + i) (by omega)
    rw [crcShifts, crcShift_of_bit_zero r (h 0 n.succ_pos), ih hrest, ← BitVec.shiftRight_add, Nat.add_comm]

/-- The high byte only shifts down, the low byte goes through the table: the loop is linear over xor (R77). -/
theorem crcUpdate_joinBytes (hi lo b : Byte) : crcUpdate (joinBytes hi lo) b = zextByte hi ^^^ crcTable (lo ^^^ b) := by
  have hhigh : crcShifts 8 (joinBytes hi 0#8) = zextByte hi := by
    rw [crcShifts_of_low_bits_zero, joinBytes_ushiftRight_eight]
    intro i hi
    simp [getLsbD_joinBytes, hi]
  have hlow : crcShifts 8 (zextByte (lo ^^^ b)) = crcTable (lo ^^^ b) :=
    congrArg (crcShifts 8) BitVec.zero_xor.symm
  calc crcUpdate (joinBytes hi lo) b
      = crcShifts 8 (joinBytes hi 0#8 ^^^ zextByte (lo ^^^ b)) := by
        rw [crcUpdate, joinBytes_xor_zextByte, joinBytes_xor_zextByte, BitVec.zero_xor]
    _ = zextByte hi ^^^ crcTable (lo ^^^ b) := by rw [crcShifts_xor, hhigh, hlow]

/-- Settles O41: on the two bytes of the register. -/
theorem crcUpdateTableForm : Obligations.CrcUpdateTableForm := by
  intro c b
  change crcUpdate c b = (c >>> 8) ^^^ crcTable (lowByte (c ^^^ zextByte b))
  rw [← joinBytes_split c, crcUpdate_joinBytes, joinBytes_ushiftRight_eight, joinBytes_xor_zextByte, lowByte_joinBytes]

/-! ## Bijection -/

theorem crcShifts_injective (n : Nat) : Function.Injective (crcShifts n) := by
  induction n with
  | zero => exact fun _ _ h => h
  | succ n ih => exact fun a b h => crcShift_injective a b (ih h)

/-- The xor with the byte and the eight turns can each be undone (R78). -/
theorem crcUpdate_injective (b : Byte) : Function.Injective (crcUpdate · b) := fun _ _ h =>
  (BitVec.xor_left_inj _).1 (crcShifts_injective 8 h)

theorem foldl_crcUpdate_injective (s : List Byte) : Function.Injective (s.foldl crcUpdate) := by
  induction s with
  | nil => exact fun _ _ h => h
  | cons b s ih => exact fun c d h => crcUpdate_injective b (ih h)

/-- Settles O42: an injective function on the finitely many words is a bijection. -/
theorem crcUpdateIsBijective : Obligations.CrcUpdateIsBijective := by
  have : Finite Word := Finite.of_injective BitVec.toFin BitVec.toFin_injective
  exact ⟨fun b => Finite.injective_iff_bijective.1 (crcUpdate_injective b), fun c d s => (foldl_crcUpdate_injective s).ne⟩

/-! ## Residue -/

@[simp] theorem crcTable_zero : crcTable 0#8 = 0#16 := crcShifts_of_low_bits_zero fun _ _ => BitVec.getLsbD_zero

/-- Folding the low byte of the register brings its high byte down (R71). -/
theorem crcUpdate_own_low_byte (hi lo : Byte) : crcUpdate (joinBytes hi lo) lo = zextByte hi := by
  rw [crcUpdate_joinBytes, BitVec.xor_self, crcTable_zero, BitVec.xor_zero]

/-- The fold over the register's own two bytes, low byte first, ends at 0 (R79). -/
theorem foldl_crcUpdate_own_bytes (hi lo : Byte) : [lo, hi].foldl crcUpdate (joinBytes hi lo) = 0 := by
  rw [List.foldl_cons, List.foldl_cons, List.foldl_nil, crcUpdate_own_low_byte, zextByte_eq_joinBytes,
    crcUpdate_own_low_byte]
  rfl

/-- Two more bytes bring the checksum to 0 exactly when they are the checksum so far, low byte first (R79): the fold over them is
injective. -/
theorem crc16_append_pair_eq_zero_iff (s : List Byte) (lo hi : Byte) :
    crc16 (s ++ [lo, hi]) = 0 ↔ crc16 s = joinBytes hi lo := by
  rw [crc16_append, ← foldl_crcUpdate_own_bytes hi lo, (foldl_crcUpdate_injective _).eq_iff]

/-- Settles O43: the checksum field stands last in a frame, and `decode` compares it with the checksum of the rest. -/
theorem crcResidueIsZero : Obligations.CrcResidueIsZero := by
  refine ⟨fun s => (crc16_append_pair_eq_zero_iff ..).2 (joinBytes_split _).symm, fun s hlen => ?_⟩
  obtain ⟨a, f, lo, hi, p, rfl⟩ := frame_split s hlen
  rw [frameDecode_frame, crc16_append_pair_eq_zero_iff]
  by_cases hc : crc16 ([a, f] ++ p) = joinBytes hi lo
  · rw [if_neg (not_not.2 hc)]
    exact iff_of_true hc (fun h => nomatch h)
  · rw [if_pos hc]
    exact iff_of_false hc (not_not.2 rfl)

end Sys2Proof.Machine
end

section
/-! PROOF. `CRC.INIT`, `CRC.BYTE` and the stream of bytes that the host drives with them (spec/40_crc_engine.md R69, R72, R75,
R76). -/

namespace Sys2Proof.Machine

/-! ## The two commands -/

@[simp] theorem exec_crcInit (s : State) : exec .crcInit s = .next (s.setCrc Config.crcInit) := rfl

@[simp] theorem exec_crcByte (b : Byte) (s : State) : exec (.crcByte b) s = .next (s.setCrc (crcUpdate s.crc b)) := rfl

/-- A command without operand and an `imm8` other than 0x00 is refused by name (R61). -/
theorem decodeBare_joinBytes_of_ne {imm8 : Byte} (op : Byte) (i : Instr) (h : imm8 ≠ 0) :
    decodeBare (joinBytes op imm8) i = .error (.immediate op imm8) := by
  rw [decodeBare, immField_joinBytes, opcodeField_joinBytes, if_neg h]

/-- Settles O8: the reserved words 0x01bb by their fields. -/
theorem crcInitSetsInitialValue : Obligations.CrcInitSetsInitialValue := by
  refine ⟨exec_crcInit, decode_encode .crcInit, fun b hb => ?_⟩
  have hword : (0x0100 : Word) ||| b.setWidth 16 = joinBytes 0x01 b := joinBytes_zero_or_zextByte 0x01 b
  have hdecode : decode (joinBytes 0x01 b) = decodeBare (joinBytes 0x01 b) .crcInit := by
    rw [decode, opcodeField_joinBytes]
    rfl
  rw [hword, hdecode, decodeBare_joinBytes_of_ne _ _ hb]

/-- Settles O9: the two printed values by running the loop. -/
theorem crcByteFoldsOneByte : Obligations.CrcByteFoldsOneByte :=
  ⟨exec_crcByte, fun b => decode_encode (.crcByte b), rfl, rfl⟩

/-! ## Streams -/

theorem streamedBytes_cons (e : Event) (es : List Event) : streamedBytes (e :: es) = streamedBytes [e] ++ streamedBytes es :=
  List.filterMap_append (l := [e])

theorem streamedBytes_write (a : CellAddr) (v : Word) :
    streamedBytes [.write a v] = if a = cmdAddr ∧ opcodeField v = 0x02 then [immField v] else [] := by
  by_cases h : a = cmdAddr ∧ opcodeField v = 0x02
  · rw [if_pos h]
    exact List.filterMap_cons_some (if_pos h)
  · rw [if_neg h]
    exact List.filterMap_cons_none (if_neg h)

theorem streamedBytes_crcByte (b : Byte) : streamedBytes [cmd (.crcByte b)] = [b] := by
  rw [cmd, issue, encode_crcByte, streamedBytes_write, opcodeField_joinBytes, immField_joinBytes, if_pos ⟨rfl, rfl⟩]

/-- The write of a word that is no command's folds no byte. -/
theorem streamedBytes_write_of_not_cmd {a : CellAddr} {v : Word} (h : ∀ i, Event.write a v ≠ cmd i) :
    streamedBytes [.write a v] = [] := by
  rw [streamedBytes_write, if_neg]
  rintro ⟨rfl, hop⟩
  refine h (.crcByte (immField v)) ?_
  rw [cmd, issue, encode_crcByte, ← hop, ← word_eq_opcode_imm]

/-- The commands of a stream are `NOP` and `CRC.BYTE` (R69). -/
theorem nop_or_crcByte_of_streamEvent {i : Instr} (h : streamEvent (cmd i) = true) : i = .nop ∨ ∃ b, i = .crcByte b := by
  cases i with
  | nop => exact .inl rfl
  | crcByte b => exact .inr ⟨b, rfl⟩
  | crcInit | enc | dec | clr => cases h

theorem serve_cmd (i : Instr) (s : State) : serve (cmd i) s = exec i s := by
  change command (encode i) s = exec i s
  rw [command, decode_encode]

/-- An event of a stream folds into `CRC` its byte, if it has one (R69). -/
theorem serve_streamEvent_crc {e : Event} {s t : State} (he : streamEvent e = true) (h : serve e s = .next t) :
    t.crc = (streamedBytes [e]).foldl crcUpdate s.crc := by
  cases e with
  | read a => exact hostRead_crc_eq h
  | write a v =>
    by_cases hcmd : ∃ i, Event.write a v = cmd i
    · obtain ⟨i, hi⟩ := hcmd
      rw [hi] at he h ⊢
      rw [serve_cmd] at h
      rcases nop_or_crcByte_of_streamEvent he with rfl | ⟨b, rfl⟩
      · obtain rfl := Host.Outcome.next.inj h
        rfl
      · obtain rfl := Host.Outcome.next.inj h
        rw [streamedBytes_crcByte]
        rfl
    · have hnot : ∀ i, Event.write a v ≠ cmd i := not_exists.1 hcmd
      rw [streamedBytes_write_of_not_cmd hnot]
      by_contra hne
      obtain ⟨i, hi, -⟩ := hostWrite_crc_ne h hne
      exact hnot i hi
  | reset => cases he

/-- The events of a stream fold into `CRC` their bytes, in order (R69, R72). -/
theorem run_stream_crc {s t : State} {es rest : List Event} (hp : s.pending = es ++ rest)
    (hes : ∀ e ∈ es, streamEvent e = true) (h : run es.length s = .next t) :
    t.crc = (streamedBytes es).foldl crcUpdate s.crc := by
  induction es generalizing s with
  | nil =>
    obtain rfl := Host.Outcome.next.inj h
    rfl
  | cons e es ih =>
    obtain ⟨he, hes⟩ := List.forall_mem_cons.1 hes
    obtain ⟨u, hstep, hrun⟩ := run_succ_next es.length s t h
    have hpend : u.pending = es ++ rest := (oneEventPerStep s u e (es ++ rest) hp hstep).1
    rw [step_event s e _ hp] at hstep
    have hcrc : u.crc = (streamedBytes [e]).foldl crcUpdate s.crc :=
      serve_streamEvent_crc (s := s.setPending (es ++ rest)) he hstep
    rw [ih hpend hes hrun, hcrc, streamedBytes_cons e es, List.foldl_append]

/-- Settles O49: `CRC.INIT`, then the bytes by the run that O50 uses, or a stream event by event. -/
theorem streamComputesChecksum : Obligations.StreamComputesChecksum := by
  have hinit : ∀ {s : State} {rest : List Event}, s.pending = cmd .crcInit :: rest →
      step s = .next ((s.setPending rest).setCrc Config.crcInit) := step_cmd
  refine ⟨fun s bs hp => ?_, fun s t es rest hp hes h => ?_⟩
  · rw [run_succ_of_next _ _ _ (hinit hp), run_crcBytes (rest := []) (List.append_nil _).symm]
    rfl
  · rw [run_succ_of_next _ _ _ (hinit hp)] at h
    exact run_stream_crc (rest := rest) rfl hes h

end Sys2Proof.Machine
end

section
/-! PROOF. `encode` against `decode`, what `ENC` does on each side of its range test, and the codec commands run twice or one
after the other (spec/41_frame_encode.md R81 to R86; spec/42_frame_decode.md R93, R99). -/

namespace Sys2Proof.Machine

/-! ## The functions `encode` and `decode` -/

/-- Settles O44: `frameEncode_cases` pairs each answer of `encode` with its cause. -/
theorem encodingErrorHasTwoCauses : Obligations.EncodingErrorHasTwoCauses := by
  intro a f p e
  rcases frameEncode_cases a f p with ⟨hbad, he⟩ | ⟨ha, hp, he⟩ <;> rw [he]
  · simp only [Except.error.injEq, hbad, and_true, eq_comm]
  · refine iff_of_false (by simp) ?_
    rintro ⟨-, hbad⟩
    omega

/-- `encode` of a valid address and payload succeeds (R80, R81). -/
theorem frameEncode_of_in_range {a : Nat} {p : List Byte} (f : Byte) (ha : a ≤ 247) (hp : p.length ≤ 252) :
    frameEncode a f p = .ok (encodedFrame (BitVec.ofNat 8 a) f p) := by
  rcases frameEncode_cases a f p with ⟨hbad, -⟩ | ⟨-, -, he⟩
  · omega
  · rw [he, BitVec.ofInt_natCast]

/-- `decode` reads a frame back: its checksum field joins to the checksum it was split from (R55, R86). -/
theorem frameDecode_encodedFrame (a f : Byte) (p : List Byte) : frameDecode (encodedFrame a f p) = .ok ⟨a, f, p⟩ := by
  rw [encodedFrame, checksumField, frameDecode_frame, joinBytes_split, if_neg (not_not.2 rfl)]

/-- Settles O47: `encode` succeeds within bounds, and `decode` reads its frame back. -/
theorem frameRoundTrip : Obligations.FrameRoundTrip := fun a f p ha hp =>
  ⟨_, frameEncode_of_in_range f ha hp, frameDecode_encodedFrame (BitVec.ofNat 8 a) f p⟩

/-! ## `ENC` -/

/-- The cells `ENC` stores to, by its range test (R44, R83, R84). -/
theorem encStores_eq (s : State) :
    encStores s = if 247 < s.addr.toNat ∨ 252 < s.plen.toNat then []
      else [0, 1, s.plen.toNat + 2, s.plen.toNat + 3] := if_congr (encodingFails_iff s) rfl rfl

/-- A successful `ENC` leaves every cell but its four as it was (R44). -/
theorem encDone_get_of_notMem {s : State} {k : Nat} (p : List Byte)
    (hk : k ∉ [0, 1, s.plen.toNat + 2, s.plen.toNat + 3]) :
    Memory.get (encDone s p).buf k = Memory.get s.buf k := by
  simp only [List.mem_cons, List.not_mem_nil, or_false, not_or] at hk
  obtain ⟨h0, h1, hlo, hhi⟩ := hk
  rw [encDone_get, if_neg hhi, if_neg hlo, if_neg h1, if_neg h0]

/-- The frame is four bytes longer than its payload (R83). -/
theorem encDone_flen {s : State} (p : List Byte) (hp : s.plen.toNat ≤ 252) :
    (encDone s p).flen.toNat = s.plen.toNat + 4 := toNat_ofNat_length _ (by omega)

/-- Settles O13: `ENC` runs its success path, which leaves the frame of `encode` from cell 0 on. -/
theorem encBuildsEncodedFrame : Obligations.EncBuildsEncodedFrame := by
  intro s p ha hl hp hh
  have hframe : frameEncode s.addr.toNat s.fc p = .ok (encodedFrame s.addr s.fc p) := by
    rw [frameEncode_of_in_range s.fc ha hp, BitVec.ofNat_toNat, BitVec.setWidth_eq]
  have hflen : (encDone s p).flen.toNat = p.length + 4 := by
    rw [encDone_flen p (by omega), hl]
  have hrest : ∀ k, p.length + 4 ≤ k → Memory.get (encDone s p).buf k = Memory.get s.buf k := fun k hk =>
    encDone_get_of_notMem p (by simp only [List.mem_cons, List.not_mem_nil, or_false]; omega)
  exact ⟨encDone s p, encodedFrame s.addr s.fc p, execEnc_of_holds ha (by omega) hl hh, hframe, hflen,
    encodedFrame_length .., holds_encDone hl hh, hrest, rfl, encDone_err .., encDone_last .., encDone_accErr ..,
    reserved_withOutcome .., rfl, rfl, rfl, rfl, rfl⟩

/-- Settles O14: a failed `ENC` is `raise`, which writes the outcome fields of `STATUS` alone (R146). -/
theorem failedEncChangesOnlyOutcome : Obligations.FailedEncChangesOnlyOutcome := fun _ hbad =>
  ⟨_, execEnc_of_out_of_range hbad, rfl, err_raise .., last_raise .., accErr_raise .., reserved_withOutcome ..⟩

/-- Settles O15: the two states `ENC` can leave, each against the cells `encStores` computes for it. -/
theorem encFrame : Obligations.EncFrame := by
  intro s t h
  rcases execEnc_next_cases h with ⟨-, rfl⟩ | ⟨ha, hp, p, -, -, rfl⟩
  · exact ⟨encStores_eq s, fun _ _ => rfl, fun _ => ⟨rfl, rfl, rfl⟩, rfl, rfl, rfl, rfl, rfl, accErr_raise ..,
      reserved_withOutcome ..⟩
  · have hstores : encStores s = [0, 1, s.plen.toNat + 2, s.plen.toNat + 3] := by
      rw [encStores_eq, if_neg (by omega)]
    refine ⟨encStores_eq s, fun k hk => encDone_get_of_notMem p (hstores ▸ hk), fun hnone => ?_, rfl, rfl, rfl, rfl, rfl,
      encDone_accErr .., reserved_withOutcome ..⟩
    rw [hstores] at hnone
    cases hnone

/-! ## `DEC` straight after `ENC` -/

/-- `DEC` on the buffer a successful `ENC` leaves reads the same operands back (R99). -/
theorem execDec_encDone {s : State} {p : List Byte} (hp : s.plen.toNat ≤ 252) (hl : p.length = s.plen.toNat)
    (hh : holds s.buf 2 p) : execDec (encDone s p) = .next (decDone (encDone s p) s.addr s.fc p) := by
  have hlen : (encodedFrame s.addr s.fc p).length = (encDone s p).flen.toNat := by
    rw [encodedFrame_length, encDone_flen p hp, hl]
  have h4 : (encodedFrame s.addr s.fc p).length = p.length + 4 := encodedFrame_length ..
  exact execDec_of_decode_ok (f := ⟨s.addr, s.fc, p⟩) hlen (by omega) (holds_encDone hl hh) (by omega)
    (frameDecode_encodedFrame ..)

/-- Settles O40: an `ENC` with `ERR` = 0 took its success path, and `DEC` writes the values it finds. -/
theorem decAfterEncSucceeds : Obligations.DecAfterEncSucceeds := by
  intro s t h herr
  rcases execEnc_next_cases h with ⟨-, rfl⟩ | ⟨-, hp, p, hl, hh, rfl⟩
  · rw [err_raise] at herr
    cases herr
  · have hplen : BitVec.ofNat 9 p.length = (encDone s p).plen := by
      rw [hl, BitVec.ofNat_toNat, BitVec.setWidth_eq]
      rfl
    refine ⟨encDone_flen p hp, _, execDec_encDone hp hl hh, ?_, decDone_err .., decDone_last .., decDone_accErr ..,
      fun hres hacc => status_ext _ _ (decDone_err ..) (decDone_last ..) ?_ ?_⟩
    · rw [decDone, hplen]
      rfl
    · exact (decDone_accErr ..).trans ((encDone_accErr ..).trans hacc)
    · exact (reserved_withOutcome ..).trans ((reserved_withOutcome ..).trans hres)

/-! ## Running a codec command twice -/

/-- A second outcome written over a first leaves the second (R20). -/
@[simp] theorem withOutcome_withOutcome (w : Word) (e e' : BitVec 3) (l l' : BitVec 2) :
    withOutcome (withOutcome w e l) e' l' = withOutcome w e' l' :=
  status_ext _ _ (by simp) (by simp) (by simp) (by simp)

theorem raise_raise (k : ErrorKind) (c : CodecCommand) (s : State) : raise k c (raise k c s) = raise k c s :=
  congrArg s.setStatus (withOutcome_withOutcome ..)

theorem succeed_succeed (c : CodecCommand) (s : State) : succeed c (succeed c s) = succeed c s :=
  congrArg s.setStatus (withOutcome_withOutcome ..)

/-- Stores to two cells commute, in a buffer of any form: the two cell numbers and that of each listed cell
decide where they go. -/
theorem put_comm (m : Memory) {j k : Nat} (b c : Byte) (h : j ≠ k) :
    Memory.put (Memory.put m j c) k b = Memory.put (Memory.put m k b) j c := by
  induction m with
  | nil => grind [Memory.put]
  | cons d m ih => grind [Memory.put]

/-- A cell that a store would not change stays so under a store to another cell. -/
theorem put_put_of_stored {m : Memory} {j k : Nat} {b : Byte} (c : Byte) (h : Memory.put m k b = m) (hjk : j ≠ k) :
    Memory.put (Memory.put m j c) k b = Memory.put m j c := by
  rw [put_comm m b c hjk, h]

/-- The four stores of `ENC`, made again with the same bytes, change nothing (R83). -/
theorem encDone_encDone (s : State) (p : List Byte) : encDone (encDone s p) p = encDone s p := by
  have haddr : Memory.put (encDone s p).buf 0 s.addr = (encDone s p).buf :=
    put_put_of_stored _ (put_put_of_stored _ (put_put_of_stored _ (put_put_same ..) (by omega)) (by omega)) (by omega)
  have hfc : Memory.put (encDone s p).buf 1 s.fc = (encDone s p).buf :=
    put_put_of_stored _ (put_put_of_stored _ (put_put_same ..) (by omega)) (by omega)
  have hlo : Memory.put (encDone s p).buf (s.plen.toNat + 2) (lowByte (crc16 ([s.addr, s.fc] ++ p))) =
      (encDone s p).buf := put_put_of_stored _ (put_put_same ..) (by omega)
  have hhi : Memory.put (encDone s p).buf (s.plen.toNat + 3) (highByte (crc16 ([s.addr, s.fc] ++ p))) =
      (encDone s p).buf := put_put_same ..
  have hbuf : (encDone (encDone s p) p).buf = (encDone s p).buf := by
    change Memory.put (Memory.put (Memory.put (Memory.put (encDone s p).buf 0 s.addr) 1 s.fc)
      (s.plen.toNat + 2) (lowByte (crc16 ([s.addr, s.fc] ++ p))))
      (s.plen.toNat + 3) (highByte (crc16 ([s.addr, s.fc] ++ p))) = (encDone s p).buf
    rw [haddr, hfc, hlo, hhi]
  exact state_ext (withOutcome_withOutcome ..) rfl rfl rfl rfl rfl hbuf rfl rfl

/-- The payload stands where it stood after a successful `ENC` (R83). -/
theorem holds_payload_encDone {s : State} {p : List Byte} (hl : p.length = s.plen.toNat) (hh : holds s.buf 2 p) :
    holds (encDone s p).buf 2 p := fun k hk => by
  have hcell : 2 + k ∉ [0, 1, s.plen.toNat + 2, s.plen.toNat + 3] := by
    simp only [List.mem_cons, List.not_mem_nil, or_false]
    omega
  rw [encDone_get_of_notMem p hcell, hh k hk]

/-- `ENC` takes the same path a second time, over the same payload. -/
theorem execEnc_idempotent {s t : State} (h : execEnc s = .next t) : execEnc t = .next t := by
  rcases execEnc_next_cases h with ⟨hbad, rfl⟩ | ⟨ha, hp, p, hl, hh, rfl⟩
  · rw [execEnc_of_out_of_range (s := raise _ _ s) hbad, raise_raise]
  · rw [execEnc_of_holds (s := encDone s p) ha hp hl (holds_payload_encDone hl hh), encDone_encDone]

theorem decDone_decDone (s : State) (a f : Byte) (p : List Byte) :
    decDone (decDone s a f p) a f p = decDone s a f p := succeed_succeed ..

/-- `DEC` stores nothing and keeps `FLEN`, so it takes the same path a second time, over the same raw bytes. -/
theorem execDec_idempotent {s t : State} (h : execDec s = .next t) : execDec t = .next t := by
  rcases execDec_next_cases h with ⟨hl, rfl⟩ | ⟨hl, rfl⟩ | ⟨h4, h256, a, f, lo, hi, p, hp, hh, hc⟩
  · rw [execDec_eq, raise_flen, if_pos hl, raise_raise]
  · rw [execDec_eq, raise_flen, if_neg (by omega), if_pos hl, raise_raise]
  · have hlen : ([a, f] ++ p ++ [lo, hi]).length = s.flen.toNat := by simp [← hp]
    have hdec := frameDecode_frame a f lo hi p
    rcases hc with ⟨hc, rfl⟩ | ⟨hc, rfl⟩
    · rw [if_pos hc] at hdec
      have hbody : ([a, f] ++ p ++ [lo, hi]).take (s.flen.toNat - 2) = [a, f] ++ p := by
        rw [← hp, List.take_append_of_le_length (by simp), List.take_of_length_le (by simp)]
      have hagain := execDec_of_decode_error (s := raise .checksumError .dec (s.setCrc (crc16 ([a, f] ++ p)))) hlen
        (hlen ▸ h256) hh (hlen ▸ h4) hdec
      rw [hagain, raise_flen, setCrc_flen, hbody]
      exact congrArg _ (raise_raise ..)
    · rw [if_neg (not_not.2 hc)] at hdec
      rw [execDec_of_decode_ok (s := decDone s a f p) hlen (hlen ▸ h256) hh (hlen ▸ h4) hdec, decDone_decDone]

/-- Settles O39: each command takes its path again and finds its own results in place. -/
theorem codecCommandsIdempotent : Obligations.CodecCommandsIdempotent :=
  ⟨fun _ _ => execEnc_idempotent, fun _ _ => execDec_idempotent⟩

end Sys2Proof.Machine
end

section
/-! PROOF. `DEC` against the function `decode`, the exact next states of `DEC`, what a failed `DEC` leaves, and the detection of a
single changed byte (spec/42_frame_decode.md R90 to R97). -/

namespace Sys2Proof.Machine

/-! ## The function `decode` -/

/-- Settles O46: `frameDecode_cases` sets the lengths below 4 apart, and no other case answers `TruncatedFrameError`. -/
theorem decodeTestsLengthFirst : Obligations.DecodeTestsLengthFirst := by
  intro s
  rcases frameDecode_cases s with ⟨hlen, e⟩ | ⟨hlen, e⟩ | ⟨f, hlen, e⟩ <;> rw [e]
  · exact iff_of_true rfl hlen
  · exact iff_of_false (by simp) (by omega)
  · exact iff_of_false (by simp) (by omega)

/-- `decode` fails with the truncation error below 4 bytes and with the checksum error from 4 bytes on (R91). -/
theorem frameDecode_error_cases {bs : List Byte} {e : ErrorKind} (h : frameDecode bs = .error e) :
    (bs.length < 4 ∧ e = .truncatedFrameError) ∨ (4 ≤ bs.length ∧ e = .checksumError) := by
  rcases frameDecode_cases bs with ⟨hlen, hd⟩ | ⟨hlen, hd⟩ | ⟨f, -, hd⟩ <;> rw [hd] at h
  · exact .inl ⟨hlen, (Except.error.inj h).symm⟩
  · exact .inr ⟨hlen, (Except.error.inj h).symm⟩
  · cases h

/-- `decode` succeeds only on the frame of the fields it answers (R90). -/
theorem eq_encodedFrame_of_frameDecode {bs : List Byte} {f : Frame} (h : frameDecode bs = .ok f) :
    bs = encodedFrame f.address f.functionCode f.payload := by
  have hlen : 4 ≤ bs.length := by
    by_contra hshort
    rw [frameDecode_short bs (by omega)] at h
    cases h
  obtain ⟨a, c, lo, hi, p, rfl⟩ := frame_split bs hlen
  rw [frameDecode_frame] at h
  split_ifs at h with hc
  obtain rfl := Except.ok.inj h
  rw [encodedFrame, checksumField, not_not.1 hc, lowByte_joinBytes, highByte_joinBytes]

/-! ## A single changed byte -/

/-- Two different bytes folded into one register value leave different values: the xor and the eight turns lose neither (R71). -/
theorem crcUpdate_byte_injective (c : Word) : Function.Injective (crcUpdate c) := fun b d h => by
  have hword : zextByte b = zextByte d := (BitVec.xor_right_inj _).1 (crcShifts_injective 8 h)
  rw [← lowByte_zextByte b, hword, lowByte_zextByte]

/-- The checksum tells apart two sequences that differ in one byte: the fold up to it is the same, and the fold after it is
injective (R97). -/
theorem crc16_set_injective {s : List Byte} {i : Nat} (hi : i < s.length) :
    Function.Injective fun b => crc16 (s.set i b) := fun b d h => by
  simp only [List.set_eq_take_append_cons_drop, if_pos hi, crc16_append, List.foldl_cons] at h
  exact crcUpdate_byte_injective _ (foldl_crcUpdate_injective _ h)

/-- A sequence that agrees with another at every index but `i` is that other with its own byte put at `i`. -/
theorem eq_set_of_getElem?_eq {α : Type} {s t : List α} {i : Nat} (hi : i < t.length) (hl : t.length = s.length)
    (h : ∀ j, j ≠ i → t[j]? = s[j]?) : t = s.set i t[i] := by
  apply List.ext_getElem?
  intro j
  by_cases hj : j = i
  · subst hj
    rw [List.getElem?_set_self (hl ▸ hi), List.getElem?_eq_getElem hi]
  · rw [List.getElem?_set_ne (Ne.symm hj), h j hj]

/-- A change of exactly one byte changes the checksum (R97). -/
theorem crc16_ne_of_one_byte_changed {s t : List Byte} {i : Nat} (hl : t.length = s.length) (hne : t[i]? ≠ s[i]?)
    (hrest : ∀ j, j ≠ i → t[j]? = s[j]?) : crc16 t ≠ crc16 s := by
  have hi : i < s.length := by
    by_contra hout
    exact hne (by rw [List.getElem?_eq_none (by omega), List.getElem?_eq_none (by omega)])
  intro hcrc
  have hset : crc16 (s.set i t[i]) = crc16 (s.set i s[i]) := by
    rw [← eq_set_of_getElem?_eq (hl ▸ hi) hl hrest, List.set_getElem_self, hcrc]
  have hbyte : t[i] = s[i] := crc16_set_injective hi hset
  exact hne (by rw [List.getElem?_eq_getElem (hl ▸ hi), List.getElem?_eq_getElem hi, hbyte])

/-- Settles O48: a frame has residue 0, the changed sequence has not, and from 4 bytes on residue 0 is what `decode` tests (R79). -/
theorem singleByteErrorDetected : Obligations.SingleByteErrorDetected := by
  intro a f p frame t i hf hl hne hrest
  obtain ⟨-, rfl⟩ := frameEncode_ok hf
  obtain ⟨hframe, hdecode⟩ := crcResidueIsZero
  have hresidue : crc16 (encodedFrame (BitVec.ofInt 8 a) f p) = 0 := hframe ([BitVec.ofInt 8 a, f] ++ p)
  have hchanged : crc16 t ≠ 0 := hresidue ▸ crc16_ne_of_one_byte_changed hl hne hrest
  have hlen : 4 ≤ t.length := by
    rw [hl, encodedFrame_length]
    omega
  exact not_not.1 (mt (hdecode t hlen).2 hchanged)

/-! ## `DEC` on written raw bytes -/

/-- Settles O17: `decode` accepts the frame, and `decDone` writes its fields. -/
theorem decGoodFrameNextState : Obligations.DecGoodFrameNextState := by
  intro s a f lo hi p hlen hp hh hc
  have hd : frameDecode ([a, f] ++ p ++ [lo, hi]) = .ok ⟨a, f, p⟩ := by
    rw [frameDecode_frame, joinBytes, if_neg (not_not.2 hc)]
  have hl : ([a, f] ++ p ++ [lo, hi]).length = s.flen.toNat := by simp [← hlen]
  refine ⟨_, execDec_of_decode_ok hl (by omega) hh (by omega) hd, ?_, decDone_err .., decDone_last .., decDone_accErr ..,
    reserved_withOutcome ..⟩
  rw [← hc]
  rfl

/-- Settles O18: `decode` rejects the checksum, and `DEC` keeps the checksum of the bytes before the field. -/
theorem decChecksumErrorNextState : Obligations.DecChecksumErrorNextState := by
  intro s body lo hi hlen h2 h254 hh hc
  have hl : (body ++ [lo, hi]).length = s.flen.toNat := by simp [← hlen]
  have hd : frameDecode (body ++ [lo, hi]) = .error .checksumError := by
    obtain ⟨a, f, p, rfl⟩ : ∃ a f p, body = [a, f] ++ p := by
      match body, h2 with
      | a :: f :: p, _ => exact ⟨a, f, p, rfl⟩
    rw [frameDecode_frame, joinBytes, if_pos hc]
  have hbody : (body ++ [lo, hi]).take (s.flen.toNat - 2) = body := by
    rw [← hlen, Nat.add_sub_cancel, List.take_left]
  have hrun := execDec_of_decode_error hl (by omega) hh (by omega) hd
  rw [hbody] at hrun
  exact ⟨_, hrun, rfl, err_raise .., last_raise .., accErr_raise .., reserved_withOutcome ..⟩

/-- `DEC` with `FLEN` above 256 reports it, whatever `BUF` holds (R94, R145). -/
theorem execDec_of_overlength {s : State} (h : 256 < s.flen.toNat) :
    execDec s = .next (raise .overlengthError .dec s) := by
  rw [execDec_eq, if_pos h]

/-- The payload of a frame stands from its byte 2 on (R50). -/
theorem holds_payload_of_encodedFrame {m : Memory} {a f : Byte} {p : List Byte} (h : holds m 0 (encodedFrame a f p)) :
    holds m 2 p := fun k hk => by
  have hget := h (k + 2) (by rw [encodedFrame_length]; omega)
  rw [Nat.zero_add, encodedFrame_getElem? _ _ _ _ (by omega), if_neg (by omega), if_neg (by omega), if_neg (by omega),
    if_neg (by omega), Nat.add_sub_cancel] at hget
  rw [Nat.add_comm, hget]

/-- Settles O16: on written raw bytes `DEC` follows the answer of `decode`; above 256 it tests the length alone. -/
theorem decAgreesWithDecode : Obligations.DecAgreesWithDecode := by
  refine ⟨fun s bs f hl h256 hh hd => ?_, fun s bs e hl h256 hh hd => ?_, fun s hlong => ?_, fun a f p frame hf => ?_⟩
  · obtain rfl := eq_encodedFrame_of_frameDecode hd
    have hlen : (encodedFrame f.address f.functionCode f.payload).length = f.payload.length + 4 := encodedFrame_length ..
    exact ⟨_, execDec_of_decode_ok hl h256 hh (by omega) hd, rfl, rfl, toNat_ofNat_length _ (by omega),
      holds_payload_of_encodedFrame hh, decDone_err .., decDone_last ..⟩
  · rcases frameDecode_error_cases hd with ⟨hlen, rfl⟩ | ⟨hlen, rfl⟩
    · exact ⟨_, execDec_of_short hl hlen, err_raise .., last_raise ..⟩
    · exact ⟨_, execDec_of_decode_error hl h256 hh hlen hd, err_raise .., last_raise ..⟩
  · exact ⟨_, execDec_of_overlength hlong, rfl, err_raise .., last_raise .., accErr_raise .., reserved_withOutcome ..⟩
  · obtain ⟨hp, rfl⟩ := frameEncode_ok hf
    rw [encodedFrame_length]
    omega

/-! ## What `DEC` leaves unchanged -/

/-- `DEC` writes the outcome fields of `STATUS` and no reserved bit (R20, R93). -/
theorem execDec_reserved {s t : State} (h : execDec s = .next t) :
    t.status &&& statusReservedMask = s.status &&& statusReservedMask := by
  rcases execDec_next_cases h with ⟨-, rfl⟩ | ⟨-, rfl⟩ | ⟨-, -, a, f, lo, hi, p, -, -, ⟨-, rfl⟩ | ⟨-, rfl⟩⟩ <;>
    exact reserved_withOutcome ..

/-- Settles O20: the three failures are `raise`, the checksum error after the write of `CRC`; the fourth case succeeds. -/
theorem failedDecReportsNoFrame : Obligations.FailedDecReportsNoFrame := by
  intro s t h herr
  have hacc : t.accErr = s.accErr := exec_accErr h (by decide)
  have hres := execDec_reserved h
  rcases execDec_next_cases h with ⟨-, rfl⟩ | ⟨-, rfl⟩ | ⟨-, -, a, f, lo, hi, p, -, -, ⟨-, rfl⟩ | ⟨-, rfl⟩⟩
  · exact ⟨rfl, fun _ => rfl, hacc, hres⟩
  · exact ⟨rfl, fun _ => rfl, hacc, hres⟩
  · exact ⟨rfl, fun hne => absurd (err_raise ..) hne, hacc, hres⟩
  · exact absurd (decDone_err ..) herr

/-- Settles O21: none of the four states `DEC` can leave has another buffer, `FLEN` or host's side. -/
theorem decFrame : Obligations.DecFrame := by
  intro s t h
  have hkept : t.buf = s.buf ∧ t.flen = s.flen ∧ t.pending = s.pending ∧ t.answers = s.answers := by
    rcases execDec_next_cases h with ⟨-, rfl⟩ | ⟨-, rfl⟩ | ⟨-, -, a, f, lo, hi, p, -, -, ⟨-, rfl⟩ | ⟨-, rfl⟩⟩ <;>
      exact ⟨rfl, rfl, rfl, rfl⟩
  obtain ⟨hbuf, hflen, hpending, hanswers⟩ := hkept
  exact ⟨fun k => by rw [hbuf], hflen, hpending, hanswers, exec_accErr h (by decide), execDec_reserved h⟩

end Sys2Proof.Machine
end

section
/-! PROOF. The control commands `NOP` and `CLR`, and `CLR` against reset (spec/43_control.md R100, R101). -/

namespace Sys2Proof.Machine

/-! ## `NOP` -/

@[simp] theorem exec_nop (s : State) : exec .nop s = .next s := rfl

/-- Opcode 0x00 is that of `NOP`, which takes no operand (R60). -/
theorem decode_joinBytes_nop (imm8 : Byte) : decode (joinBytes 0x00 imm8) = decodeBare (joinBytes 0x00 imm8) .nop := by
  rw [decode, opcodeField_joinBytes]
  rfl

/-- Settles O7: the reserved words 0x00bb by their fields. -/
theorem nopChangesNothing : Obligations.NopChangesNothing := by
  refine ⟨exec_nop, decode_encode .nop, fun b hb => ?_⟩
  have hword : (0x0000 : Word) ||| b.setWidth 16 = joinBytes 0x00 b := joinBytes_zero_or_zextByte 0x00 b
  rw [hword, decode_joinBytes_nop, decodeBare_joinBytes_of_ne _ _ hb]

/-! ## `CLR` -/

@[simp] theorem exec_clr (s : State) : exec .clr s = .next s.clearRegisters := rfl

/-- Reset does what `CLR` does and leaves `BUF` with no written cell (R25, R162). -/
theorem hostReset_eq (s : State) : hostReset s = .next { s.clearRegisters with buf := [] } := rfl

/-- Settles O10: `exec_accErr` says that no other command touches `ACCERR`, `hostReset_eq` what reset adds to `CLR`. -/
theorem clrRestoresRegisterCells : Obligations.ClrRestoresRegisterCells := by
  refine ⟨exec_clr, decode_encode .clr, fun i s t h hi hacc => ?_, fun s t u ht hu => ?_⟩
  · rw [exec_accErr h hi, hacc]
  · obtain rfl : s.clearRegisters = t := Host.Outcome.next.inj ((exec_clr s).symm.trans ht)
    exact (Host.Outcome.next.inj ((hostReset_eq s).symm.trans hu)).symm

end Sys2Proof.Machine
end

section
/-! PROOF. The errors that `ENC` and `DEC` report, each with its cause (spec/60_exceptions.md R141 to R145). -/

namespace Sys2Proof.Machine

/-! ## The code that a command reports, with its cause -/

/-- `ENC` reports its one error exactly on an operand out of range (R142). -/
theorem execEnc_err_eq_one_iff {s t : State} (h : execEnc s = .next t) :
    t.err = 1 ↔ 247 < s.addr.toNat ∨ 252 < s.plen.toNat := by
  rcases execEnc_next_cases h with ⟨hbad, rfl⟩ | ⟨ha, hp, p, -, -, rfl⟩
  · exact iff_of_true (err_raise ..) hbad
  · exact iff_of_false (by simp) (by omega)

/-- The code in `ERR` after `DEC`, by `FLEN` and, for `ChecksumError`, the bytes that were compared (R141). -/
theorem execDec_err_cases {s t : State} (h : execDec s = .next t) :
    (256 < s.flen.toNat ∧ t.err = 4) ∨
    (s.flen.toNat < 4 ∧ t.err = 2) ∨
    (4 ≤ s.flen.toNat ∧ s.flen.toNat ≤ 256 ∧ t.err = 3 ∧
      ∃ (body : List Byte) (lo hi : Byte), body.length + 2 = s.flen.toNat ∧ holds s.buf 0 (body ++ [lo, hi]) ∧
        crc16 body ≠ hi ++ lo) ∨
    (4 ≤ s.flen.toNat ∧ s.flen.toNat ≤ 256 ∧ t.err = 0) := by
  rcases execDec_next_cases h with ⟨hlen, rfl⟩ | ⟨hlen, rfl⟩ | ⟨h4, h256, a, f, lo, hi, p, hp, hh, ⟨hc, rfl⟩ | ⟨-, rfl⟩⟩
  · exact .inl ⟨hlen, err_raise ..⟩
  · exact .inr (.inl ⟨hlen, err_raise ..⟩)
  · exact .inr (.inr (.inl ⟨h4, h256, err_raise .., [a, f] ++ p, lo, hi, by simpa using hp, hh, hc⟩))
  · exact .inr (.inr (.inr ⟨h4, h256, decDone_err ..⟩))

/-- `DEC` reports `TruncatedFrameError` exactly below the smallest frame (R143). -/
theorem execDec_err_eq_two_iff {s t : State} (h : execDec s = .next t) : t.err = 2 ↔ s.flen.toNat < 4 := by
  rcases execDec_err_cases h with ⟨hlen, e⟩ | ⟨hlen, e⟩ | ⟨h4, -, e, -⟩ | ⟨h4, -, e⟩ <;> rw [e]
  · exact iff_of_false (by decide) (by omega)
  · exact iff_of_true rfl hlen
  · exact iff_of_false (by decide) (by omega)
  · exact iff_of_false (by decide) (by omega)

/-- `DEC` reports `OverlengthError` exactly above the size of `BUF` (R145). -/
theorem execDec_err_eq_four_iff {s t : State} (h : execDec s = .next t) : t.err = 4 ↔ 256 < s.flen.toNat := by
  rcases execDec_err_cases h with ⟨hlen, e⟩ | ⟨hlen, e⟩ | ⟨-, h256, e, -⟩ | ⟨-, h256, e⟩ <;> rw [e]
  · exact iff_of_true rfl hlen
  · exact iff_of_false (by decide) (by omega)
  · exact iff_of_false (by decide) (by omega)
  · exact iff_of_false (by decide) (by omega)

/-- `DEC` reports `ChecksumError` exactly when the received checksum is not that of the bytes before it (R144). -/
theorem execDec_err_eq_three_iff {s t : State} (h : execDec s = .next t) :
    t.err = 3 ↔ 4 ≤ s.flen.toNat ∧ s.flen.toNat ≤ 256 ∧
      ∃ (body : List Byte) (lo hi : Byte), body.length + 2 = s.flen.toNat ∧ holds s.buf 0 (body ++ [lo, hi]) ∧
        crc16 body ≠ hi ++ lo := by
  constructor
  · intro herr
    rcases execDec_err_cases h with ⟨-, e⟩ | ⟨-, e⟩ | ⟨h4, h256, -, hbytes⟩ | ⟨-, -, e⟩
    · exact absurd (e.symm.trans herr) (by decide)
    · exact absurd (e.symm.trans herr) (by decide)
    · exact ⟨h4, h256, hbytes⟩
    · exact absurd (e.symm.trans herr) (by decide)
  · rintro ⟨h4, h256, body, lo, hi, hlen, hh, hc⟩
    obtain ⟨u, hu, -, herr, -⟩ := decChecksumErrorNextState s body lo hi hlen (by omega) (by omega) hh hc
    obtain rfl : t = u := Host.Outcome.next.inj (h.symm.trans hu)
    exact herr

/-- `DEC` with `FLEN` below 4 tests the length alone and reads no cell (R143). -/
theorem execDec_of_truncated {s : State} (h : s.flen.toNat < 4) :
    execDec s = .next (raise .truncatedFrameError .dec s) := by
  rw [execDec_eq, if_neg (by omega), if_pos h]

/-! ## The statements -/

/-- Settles O19: below 4 `DEC` is `raise`, which writes the outcome fields of `STATUS` alone; from 4 on the code is another. -/
theorem truncationDependsOnLengthAlone : Obligations.TruncationDependsOnLengthAlone := by
  refine ⟨fun s hlen => ?_, fun s t h4 h herr => ?_⟩
  · exact ⟨_, execDec_of_truncated hlen, rfl, err_raise .., last_raise .., accErr_raise .., reserved_withOutcome ..⟩
  · exact absurd ((execDec_err_eq_two_iff h).1 herr) (by omega)

/-- Settles O22: the codes that occur, then each with its cause. -/
theorem errorCodesHaveTheirCauses : Obligations.ErrorCodesHaveTheirCauses := by
  refine ⟨fun s t h => ?_, fun s t h => ?_⟩
  · obtain ⟨-, hcodes⟩ := execEnc_outcome h
    exact ⟨hcodes, execEnc_err_eq_one_iff h⟩
  · obtain ⟨-, hcodes⟩ := execDec_outcome h
    exact ⟨hcodes, execDec_err_eq_two_iff h, execDec_err_eq_four_iff h, execDec_err_eq_three_iff h⟩

end Sys2Proof.Machine
end

section
/-! PROOF. Reset, and what a clear `ACCERR` at the end of a run says of the events taken (spec/70_reset_and_hazards.md R160, R167). -/

namespace Sys2Proof.Machine

/-- Settles O12: the reset event is served by `hostReset`, which keeps the host's two lists only. -/
theorem resetEventRestoresResetState : Obligations.ResetEventRestoresResetState := by
  intro s rest hp
  rw [step_event s .reset rest hp]
  rfl

/-- After a refused event `ACCERR` is 1 (R22). -/
theorem serve_refused_accErr {e : Event} {s t : State} (hr : refusedEvent e = true) (h : serve e s = .next t) :
    t.accErr = true := by
  rcases serve_refused s hr with ⟨_, -, href⟩ | ⟨_, _, -, href⟩
  · obtain rfl := Host.Outcome.next.inj (href.symm.trans h)
    simp
  · obtain rfl := Host.Outcome.next.inj (href.symm.trans h)
    simp

/-- An event other than `CLR` and reset that leaves `ACCERR` = 0 found it 0 and was not refused (R22). -/
theorem serve_accErr_false {e : Event} {s t : State} (h : serve e s = .next t) (hacc : t.accErr = false)
    (hclr : e ≠ .write 0x000 (encode .clr)) (hreset : e ≠ .reset) : s.accErr = false ∧ refusedEvent e = false := by
  cases hr : refusedEvent e with
  | true => simp [serve_refused_accErr hr h] at hacc
  | false => exact ⟨(serve_accErr_eq hr h hclr hreset).symm.trans hacc, rfl⟩

/-- Settles O36, by induction on the number of steps: the rest of the run hands `ACCERR` = 0 back to the first event. -/
theorem cleanEndMeansNothingRefused : Obligations.CleanEndMeansNothingRefused := by
  intro n
  induction n with
  | zero =>
    intro s t h hacc _
    obtain rfl := Host.Outcome.next.inj h
    exact ⟨hacc, by simp⟩
  | succ n ih =>
    intro s t h hacc hes
    obtain ⟨u, hstep, hrun⟩ := run_succ_next n s t h
    cases hp : s.pending with
    | nil =>
      obtain rfl := Host.Outcome.next.inj ((step_idle s hp).symm.trans hstep)
      exact ⟨(ih s t hrun hacc (by simp [hp])).1, by simp⟩
    | cons e rest =>
      simp only [hp, List.take_succ_cons, List.forall_mem_cons] at hes ⊢
      obtain ⟨⟨hclr, hreset⟩, hrest⟩ := hes
      obtain ⟨hpend, -, -⟩ := oneEventPerStep s u e rest hp hstep
      rw [← hpend] at hrest ⊢
      obtain ⟨hu, hlater⟩ := ih u t hrun hacc hrest
      rw [step_event s e rest hp] at hstep
      obtain ⟨hs, he⟩ := serve_accErr_false (s := s.setPending rest) hstep hu hclr hreset
      exact ⟨hs, he, hlater⟩

end Sys2Proof.Machine
end
